-- ==== Sys2Proof/Word.lean ====
section
/-! DEFINITION. The one word type of the block: every register, memory cell, operand and flag value is an
unsigned byte (spec R10, R20, R46). -/

namespace Sys2Proof

/-- An unsigned 8-bit value (R10: "A `Byte` is an integer in 0..255"). Bit 0 is the least significant (R9). -/
abbrev Byte := BitVec 8

end Sys2Proof
end

