-- ==== Sys2Proof/Config.lean ====
section
/-! DEFINITION. What the implementation fixes: the parameters of spec R7, and the values this model gives the two
reset parameters `init_regs` and `init_fl` in the ONE state `State.reset` (R8); and the one free value, a point on
which two rules of the spec contradict each other. -/

namespace Sys2Proof.Config

/-- `MEM_SIZE`: addresses 0..255 (R7, R45). -/
abbrev memSize : Nat := 256

/-- The reset value of the stack pointer `x[7]` (R7, R42). -/
def spReset : Byte := 0xF4

/-- The reset value of the program counter, the reset vector (R7, R147). -/
def pcReset : Nat := 0

/-- What an address that nothing has written reads as (R42: `mem[L .. 255]` is 0). -/
def memFill : Byte := 0

/-- Whether `POP r7` at SP = 255 faults although the byte there is below 255. R108 (its last sentence) and D8 fault it, R110
and R114 complete it. A free value (log entry 23, safe): nothing in the model says which. -/
opaque popR7AtTopFaults : Bool

/-- `init_regs` as `State.reset` takes it. The spec leaves `x[0] .. x[6]` open at reset (R42, D3).
DESIGN CHOICE (log entry 1, unsafe): zero. `State.resetWith` takes any value. -/
def initRegs : Fin 7 → Byte := fun _ => 0

/-- `init_fl` as `State.reset` takes it. The spec leaves `FL` open at reset (R42, D4).
DESIGN CHOICE (log entry 2, unsafe): zero. `State.resetWith` takes any value. -/
def initFl : Byte := 0

end Sys2Proof.Config
end

