-- ==== Sys2Proof/Machine/State.lean ====
section
/-! DEFINITION. The state of the block (spec R41, R44), its fault record (R127), the reasons a step can stop, and the
state after reset (R42). -/

namespace Sys2Proof.Machine

/-- The run state (R31). -/
inductive RunState
  | ready
  | running
  | halted
  | faulted
deriving DecidableEq, Repr

/-- The fault kinds (R126). -/
inductive FaultKind
  /-- An access, a stack pointer move or a return address outside 0..255. -/
  | addressError
  /-- The fetched opcode byte is not in the table. -/
  | unknownOpcodeError
  /-- The ALU driven with a select other than ADD or MULTIPLY; no instruction raises it (R98). -/
  | unsupportedOperationError
  /-- A register operand byte above 7. -/
  | registerIndexError
deriving DecidableEq, Repr

/-- The contexts of a fault (R127); `ret` is the spec's `Return`. -/
inductive FaultContext
  | fetch
  | operandFetch
  | stackPush
  | stackPop
  | callPush
  | callReturnAddress
  | ret
  | decode
  | alu
deriving DecidableEq, Repr

/-- What a `raise E(info)` names: the kind, the value and the context (R13, R128). -/
structure Raised where
  kind  : FaultKind
  value : Int
  ctx   : FaultContext
deriving DecidableEq, Repr

/-- The fault record (R127): the instruction address and, if one was fetched, the opcode byte, beside what was
raised. -/
structure FaultRecord where
  kind   : FaultKind
  pc     : Nat
  opcode : Option Byte
  value  : Int
  ctx    : FaultContext
deriving DecidableEq, Repr

/-- The 256-byte memory (R35, R45): the cells that do not hold `Config.memFill`, by rising address (`Memory.wf` in
Machine/Ops.lean says so). -/
abbrev Memory := List Host.Cell

/-- The whole state between instructions (R41: "exactly: `mem`, `x[0..7]`, `pc`, `FL`, `run`, `fault`, `out`"). -/
structure State where
  /-- The memory: program and stack (R35). -/
  mem   : Memory
  /-- The register file; `x[7]` is the stack pointer (R20, R22). -/
  x     : Vector Byte 8
  /-- The program counter, 0..256 (R25, R44); a natural number, as R44 has it (DESIGN CHOICE, log entry 6). -/
  pc    : Nat
  /-- The flags register: bit 0 Equal, bit 1 Greater-than, bit 2 Less-than (R29). -/
  FL    : Byte
  /-- The run state (R31). -/
  run   : RunState
  /-- The fault record, present exactly in Faulted (R32). -/
  fault : Option FaultRecord
  /-- The output trace, oldest byte first (R34). -/
  out   : List Byte
deriving DecidableEq, Repr

/-- Why a step makes no transition. The spec's own faults are NOT here: they are transitions to Faulted (R31, R128), so
they are next states (DEDUCED, log entry 5). -/
inductive Fault
  /-- Raised by `step` alone, when the block is not Running: "A model gives such a step no transition" (R92). Safe: the
  model stops where the block does nothing (DESIGN CHOICE, log entry 4). -/
  | notRunning (run : RunState)
deriving DecidableEq, Repr

/-- Why an instruction has no meaning. -/
inductive Refusal
  /-- Raised by an arm of `exec` that has no meaning yet; no arm is left so. Safe: the model stops. -/
  | notModelled (mnemonic : String)
deriving DecidableEq, Repr

/-- The state at the start of a run with nothing loaded (R42), for any values of the parameters `init_regs` and
`init_fl` (R8, R149). Memory lists nothing: every cell reads 0 (DEDUCED, log entry 8). -/
def State.resetWith (initRegs : Fin 7 → Byte) (initFl : Byte) : State where
  mem := []
  x := #v[initRegs 0, initRegs 1, initRegs 2, initRegs 3, initRegs 4, initRegs 5, initRegs 6, Config.spReset]
  pc := Config.pcReset
  FL := initFl
  run := .ready
  fault := none
  out := []

/-- The state after reset, at the values `Config` names for the two parameters (log entries 1 and 2). -/
def State.reset : State := State.resetWith Config.initRegs Config.initFl

end Sys2Proof.Machine
end

