-- ==== Sys2Proof/Machine/Ops.lean ====
section
/-! DEFINITION. The shared operations: memory cells and the memory port (spec R36, R47, R48), the register file (R12,
R20), the stack pointer's moves (R106 to R108), the program counter (R84), the output port (R37), and taking a fault
(R128). There is no return from a fault (R135). -/

namespace Sys2Proof.Machine

/-! ## Memory cells -/

/-- The byte at an address: the listed one, or `Config.memFill`. -/
def Memory.read : Memory → Nat → Byte
  | [], _ => Config.memFill
  | (b, v) :: m, a => if a = b then v else Memory.read m a

/-- Store a byte, keeping addresses rising and listing no cell that holds `Config.memFill`. -/
def Memory.write : Memory → Nat → Byte → Memory
  | [], a, v => if v = Config.memFill then [] else [(a, v)]
  | (b, w) :: m, a, v =>
    if a < b then
      if v = Config.memFill then (b, w) :: m else (a, v) :: (b, w) :: m
    else if a = b then
      if v = Config.memFill then m else (a, v) :: m
    else (b, w) :: Memory.write m a v

/-- The listed addresses rise from `lo` on, lie in 0..255, and no listed cell holds `Config.memFill`. -/
def Memory.wfFrom : Nat → Memory → Bool
  | _, [] => true
  | lo, (a, v) :: m => decide (lo ≤ a) && decide (a < Config.memSize) && decide (v ≠ Config.memFill) && Memory.wfFrom (a + 1) m

/-- The one canonical form of a memory. -/
def Memory.wf (m : Memory) : Bool := Memory.wfFrom 0 m

/-- Store bytes at consecutive addresses from `a` on; a byte that would fall outside 0..255 is left out. -/
def Memory.writeBytes (m : Memory) (a : Nat) : List Byte → Memory
  | [] => m
  | v :: vs => Memory.writeBytes (if a < Config.memSize then m.write a v else m) (a + 1) vs

/-! ## Raising -/

/-- `AddressError(addr, ctx)` (R13, R126). -/
def addressError (addr : Int) (ctx : FaultContext) : Raised := ⟨.addressError, addr, ctx⟩

/-- `RegisterIndexError(b)`, whose context is Decode (R127). -/
def registerIndexError (b : Byte) : Raised := ⟨.registerIndexError, b.toNat, .decode⟩

/-- `UnknownOpcodeError(op)`, whose context is Decode (R83, R127). -/
def unknownOpcodeError (op : Byte) : Raised := ⟨.unknownOpcodeError, op.toNat, .decode⟩

/-- `UnsupportedOperationError(op)`, whose context is Alu (R98, R127). -/
def unsupportedOperationError (op : Byte) : Raised := ⟨.unsupportedOperationError, op.toNat, .alu⟩

/-- The numbers R126 gives the fault kinds. -/
def FaultKind.code : FaultKind → Nat
  | .addressError => 1
  | .unknownOpcodeError => 2
  | .unsupportedOperationError => 3
  | .registerIndexError => 4

/-- Taking a fault (R128): every write of the step is discarded, `run` becomes Faulted and the record is stored; `pc`
keeps the faulting instruction's address (R130; UNVERIFIED: the spec's decision D7, log entry 14). `s` is the state in which
the step began. -/
def State.takeFault (s : State) (opcode : Option Byte) (e : Raised) : State :=
  { s with run := .faulted, fault := some ⟨e.kind, s.pc, opcode, e.value, e.ctx⟩ }

/-- The end of an instruction's statements: the state they leave, or the fault one of them raised, taken from the state
`s` in which the instruction began (R14, R93: all of its writes or none). -/
def complete (opcode : Byte) (s : State) : Except Raised State → Host.Outcome State Fault Refusal
  | .ok t => .next t
  | .error e => .next (s.takeFault (some opcode) e)

/-! ## Memory port -/

/-- `MemRead(addr, 1)` (R47). -/
def State.memRead (s : State) (addr : Int) (ctx : FaultContext) : Except Raised Byte :=
  if addr < 0 ∨ addr > 255 then .error (addressError addr ctx) else .ok (s.mem.read addr.toNat)

/-- `mem[addr] <- v` at an address of the memory (R48). -/
def State.storeByte (s : State) (a : Nat) (v : Byte) : State := { s with mem := s.mem.write a v }

/-- `MemWrite(addr, 1, v)` (R48). -/
def State.memWrite (s : State) (addr : Int) (v : Byte) (ctx : FaultContext) : Except Raised State :=
  if addr < 0 ∨ addr > 255 then .error (addressError addr ctx)
  else .ok (s.storeByte addr.toNat v)

/-! ## Registers -/

/-- `x[r]` (R12). No register is hard-wired (R21). -/
def State.readReg (s : State) (r : Fin 8) : Byte := s.x[r.val]

/-- `x[r] <- v` (R12). -/
def State.writeReg (s : State) (r : Fin 8) (v : Byte) : State := { s with x := s.x.set r.val v }

/-- The register that is the stack pointer (R22). -/
def spReg : Fin 8 := 7

/-- `SP`, another name for `x[7]` (R12, R22). -/
def State.sp (s : State) : Byte := s.readReg spReg

/-- SP decrement: a fault with the address −1 if SP is 0 (R107; UNVERIFIED: D8, log entry 15). -/
def State.decrementSp (s : State) (ctx : FaultContext) : Except Raised State :=
  if s.sp.toNat = 0 then .error (addressError (-1) ctx)
  else .ok (s.writeReg spReg (s.sp - 1))

/-- SP increment: a fault with the incremented address if it would be above 255 (R108; UNVERIFIED: D8, log
entry 15). An empty stack is not detected (D22, log entry 11). -/
def State.incrementSp (s : State) (ctx : FaultContext) : Except Raised State :=
  if s.sp.toNat + 1 > 255 then .error (addressError ((s.sp.toNat : Int) + 1) ctx)
  else .ok (s.writeReg spReg (s.sp + 1))

/-! ## Program counter, run state, output -/

/-- `pc <- t` (R12). -/
def State.setPc (s : State) (t : Nat) : State := { s with pc := t }

/-- The dispatcher's advance past an instruction of `n` operand bytes: `pc <- a + 1 + n`, not modulo 256 (R84, R28;
UNVERIFIED: D2, log entry 15). -/
def State.advance (s : State) (n : Nat) : State := s.setPc (s.pc + 1 + n)

/-- `run <- r` (R12, R31). -/
def State.setRun (s : State) (r : RunState) : State := { s with run := r }

/-- `Emit(v)`: append a byte to the output trace (R13, R34, R37). -/
def State.emit (s : State) (v : Byte) : State := { s with out := s.out ++ [v] }

end Sys2Proof.Machine
end

