-- ==== Sys2Proof/Machine/Operands.lean ====
section
/-! DEFINITION. The operand forms of 30_encoding.md. Format N has no operand; in format RI the second byte is the value
itself (spec R70) and the first is a register operand. -/

namespace Sys2Proof.Machine

/-- `reg(b)`: the register a register operand names, or RegisterIndexError (R13, R69). The byte is not masked (UNVERIFIED: the
spec's decision D6, log entry 13). -/
def regOperand (b : Byte) : Except Raised (Fin 8) :=
  if h : b.toNat < 8 then .ok ⟨b.toNat, h⟩ else .error (registerIndexError b)

/-- The two register operands of format RR, the first checked first (R64, R99, R131). -/
def regOperands (b1 b2 : Byte) : Except Raised (Fin 8 × Fin 8) := do
  let ra ← regOperand b1
  let rb ← regOperand b2
  return (ra, rb)

end Sys2Proof.Machine
end

