-- ==== Sys2Proof/Machine/Alu.lean ====
section
/-! DEFINITION. The ALU and its instructions (spec 41_alu.md): ADD and MULTIPLY, unsigned modulo 256, no flags. -/

namespace Sys2Proof.Machine

/-- `ALU(op, a, b)` (R97): selected by the opcode byte; any other select is UnsupportedOperationError (R98). It is also
the direct-invocation interface (R39; DESIGN CHOICE: a function, not an operation of a run, log entry 16). The sum or product is exact, then taken modulo 256 (R101). -/
def alu (op a b : Byte) : Except Raised Byte :=
  if op = 0xA0 then .ok (BitVec.ofNat 8 ((a.toNat + b.toNat) % 256))
  else if op = 0xA2 then .ok (BitVec.ofNat 8 ((a.toNat * b.toNat) % 256))
  else .error (unsupportedOperationError op)

/-- An instruction that drives the ALU with its own opcode, in place into the first operand register; both sources are
read before the write (R96, R104). -/
def aluInPlace (op b1 b2 : Byte) (s : State) : Except Raised State := do
  let (ra, rb) ← regOperands b1 b2
  let v ← alu op (s.readReg ra) (s.readReg rb)
  return (s.writeReg ra v).advance 2

/-- ADD (R99). -/
def execAdd (b1 b2 : Byte) (s : State) : Host.Outcome State Fault Refusal :=
  complete 0xA0 s (aluInPlace 0xA0 b1 b2 s)

/-- MULTIPLY (R100). -/
def execMultiply (b1 b2 : Byte) (s : State) : Host.Outcome State Fault Refusal :=
  complete 0xA2 s (aluInPlace 0xA2 b1 b2 s)

end Sys2Proof.Machine
end

