-- ==== Sys2Proof/Machine/Flags.lean ====
section
/-! DEFINITION. The flags register (spec R29) and the one flag computation, COMPARE's (R117). ADD and MULTIPLY write no
flag, and the block has no carry, zero or overflow flag (R6, R30, R103). -/

namespace Sys2Proof.Machine

/-- Bit 0 of `FL`, Equal (R29). -/
def flagE (fl : Byte) : Bool := fl.getLsbD 0

/-- Bit 1 of `FL`, Greater-than (R29). -/
def flagG (fl : Byte) : Bool := fl.getLsbD 1

/-- Bit 2 of `FL`, Less-than (R29). -/
def flagL (fl : Byte) : Bool := fl.getLsbD 2

/-- `FL[7:3]`, which no instruction changes (R29, R43). -/
def flagsUnused (fl : Byte) : BitVec 5 := fl.extractLsb' 3 5

/-- `FL[2:0]` after comparing `p` with `q`, unsigned: exactly one bit set, ties Equal (R117, R118). -/
def compareFlags (p q : Byte) : BitVec 3 :=
  if p = q then 0b001 else if p.toNat > q.toNat then 0b010 else 0b100

/-- `FL[2:0] <- bits`, with `FL[7:3]` unchanged (R117; UNVERIFIED: the spec's decision D5, log entry 12). -/
def State.setFlags (s : State) (bits : BitVec 3) : State := { s with FL := flagsUnused s.FL ++ bits }

end Sys2Proof.Machine
end

