-- ==== Sys2Proof/Machine/BranchCompare.lean ====
section
/-! DEFINITION. COMPARE and the branches (spec 43_branch_compare.md). Every target is read from a register (R116); only
the Equal bit is tested (R123). -/

namespace Sys2Proof.Machine

/-- COMPARE (R117). -/
def execCompare (b1 b2 : Byte) (s : State) : Host.Outcome State Fault Refusal :=
  complete 0xA7 s do
    let (ra, rb) ← regOperands b1 b2
    return (s.setFlags (compareFlags (s.readReg ra) (s.readReg rb))).advance 2

/-- A branch to the address in a register when `taken`, else to `a + 2`, with no further advance (R86). The register
operand is checked either way (R69). -/
def branchIf (taken : Bool) (b1 : Byte) (s : State) : Except Raised State := do
  let r ← regOperand b1
  return s.setPc (if taken then (s.readReg r).toNat else s.pc + 2)

/-- JUMP (R119). -/
def execJump (b1 : Byte) (s : State) : Host.Outcome State Fault Refusal :=
  complete 0x54 s (branchIf true b1 s)

/-- JUMP_IF_EQUAL (R120). -/
def execJumpIfEqual (b1 : Byte) (s : State) : Host.Outcome State Fault Refusal :=
  complete 0x55 s (branchIf (flagE s.FL) b1 s)

/-- JUMP_IF_NOT_EQUAL (R121). -/
def execJumpIfNotEqual (b1 : Byte) (s : State) : Host.Outcome State Fault Refusal :=
  complete 0x56 s (branchIf (!flagE s.FL) b1 s)

end Sys2Proof.Machine
end

