-- ==== Sys2Proof/Machine/Dispatcher.lean ====
section
/-! DEFINITION. The instructions the dispatcher handles itself (spec 40_dispatch.md): HALT, LOAD_IMMEDIATE,
PRINT_REGISTER. -/

namespace Sys2Proof.Machine

/-- HALT (R87): `run <- Halted`; `pc` keeps the HALT's own address. -/
def execHalt (s : State) : Host.Outcome State Fault Refusal :=
  complete 0x01 s (.ok (s.setRun .halted))

/-- LOAD_IMMEDIATE (R88): the second operand byte, unchanged, into the register. -/
def execLoadImmediate (b1 b2 : Byte) (s : State) : Host.Outcome State Fault Refusal :=
  complete 0x82 s do
    let r ← regOperand b1
    return (s.writeReg r b2).advance 2

/-- PRINT_REGISTER (R89): emit the register's byte. -/
def execPrintRegister (b1 : Byte) (s : State) : Host.Outcome State Fault Refusal :=
  complete 0x47 s do
    let r ← regOperand b1
    return (s.emit (s.readReg r)).advance 1

end Sys2Proof.Machine
end

