-- ==== Sys2Proof/Machine/StackCall.lean ====
section
/-! DEFINITION. The stack and call instructions (spec 42_stack_call.md). Statements run in the order of the rules'
pseudocode and each sees the writes before it, which decides what `r7` as the operand does (R114; UNVERIFIED: the spec's decision D10, log entry 10). -/

namespace Sys2Proof.Machine

/-- PUSH (R109): decrement SP, then store the register, read after the decrement, at the new SP. -/
def execPush (b1 : Byte) (s : State) : Host.Outcome State Fault Refusal :=
  complete 0x45 s do
    let r ← regOperand b1
    let s1 ← s.decrementSp .stackPush
    let s2 ← s1.memWrite s1.sp.toNat (s1.readReg r) .stackPush
    return s2.advance 1

/-- Where the rules about `POP r7` contradict each other: SP = 255, the byte there below 255 (at 255 they agree on the
fault). Log entry 23. -/
abbrev popR7AtTop (r : Fin 8) (s : State) : Prop := r = spReg ∧ s.sp.toNat = 255

/-- The bound of R108's last sentence and D8, tested before any write: a pop that reads address 255 is not completed. It
matters for `r7` only, since POP into another register then fails the bound of R110; whether it holds for `r7` is the
free value `Config.popR7AtTopFaults`. -/
def popBound (r : Fin 8) (s : State) : Except Raised Unit :=
  if popR7AtTop r s ∧ Config.popR7AtTopFaults = true then .error (addressError 256 .stackPop) else .ok ()

/-- POP (R110): load the register from SP, then increment SP, read after that load; `popBound` comes before the load. -/
def execPop (b1 : Byte) (s : State) : Host.Outcome State Fault Refusal :=
  complete 0x46 s do
    let r ← regOperand b1
    let v ← s.memRead s.sp.toNat .stackPop
    popBound r s
    let s1 := s.writeReg r v
    let s2 ← s1.incrementSp .stackPop
    return s2.advance 1

/-- The address after a CALL and its operand, as the Byte CALL stores; above 255 it is a fault (R111, R112). -/
def returnAddress (s : State) : Except Raised Byte :=
  if s.pc + 2 > 255 then .error (addressError ((s.pc : Int) + 2) .callReturnAddress)
  else .ok (BitVec.ofNat 8 (s.pc + 2))

/-- CALL (R111): decrement SP, store the return address there, jump to the register, read after the decrement. -/
def execCall (b1 : Byte) (s : State) : Host.Outcome State Fault Refusal :=
  complete 0x50 s do
    let r ← regOperand b1
    let s1 ← s.decrementSp .callPush
    let ret ← returnAddress s1
    let s2 ← s1.memWrite s1.sp.toNat ret .callPush
    return s2.setPc (s2.readReg r).toNat

/-- RETURN (R113): jump to the byte at SP, then increment SP. -/
def execReturn (s : State) : Host.Outcome State Fault Refusal :=
  complete 0x11 s do
    let t ← s.memRead s.sp.toNat .ret
    let s1 ← s.incrementSp .ret
    return s1.setPc t.toNat

end Sys2Proof.Machine
end

