-- ==== Sys2Proof/Syntax.lean ====
section
/-! DEFINITION. The 13 instructions of the closed opcode table (spec R3, R67), and the shape of a row of the decoder's
table (R94). An operand is kept as the whole byte the instruction carries (R64, R69): whether a register byte names a
register is checked when the instruction runs (R69, R81; DEDUCED, log entry 7), so every byte is a form of its
instruction. -/

namespace Sys2Proof

/-- One constructor per row of the opcode map (R67), in its order. -/
inductive Instr
  /-- HALT, format N (R87). -/
  | halt
  /-- LOAD_IMMEDIATE `reg, value`, format RI (R88). -/
  | loadImmediate (reg imm : Byte)
  /-- PRINT_REGISTER `reg`, format R (R89). -/
  | printRegister (reg : Byte)
  /-- MULTIPLY `reg_a, reg_b`, format RR (R100). -/
  | multiply (regA regB : Byte)
  /-- ADD `reg_a, reg_b`, format RR (R99). -/
  | add (regA regB : Byte)
  /-- PUSH `reg`, format R (R109). -/
  | push (reg : Byte)
  /-- POP `reg`, format R (R110). -/
  | pop (reg : Byte)
  /-- CALL `reg`, format R (R111). -/
  | call (reg : Byte)
  /-- RETURN, format N (R113). -/
  | ret
  /-- COMPARE `reg_a, reg_b`, format RR (R117). -/
  | compare (regA regB : Byte)
  /-- JUMP `reg`, format R (R119). -/
  | jump (reg : Byte)
  /-- JUMP_IF_EQUAL `reg`, format R (R120). -/
  | jumpIfEqual (reg : Byte)
  /-- JUMP_IF_NOT_EQUAL `reg`, format R (R121). -/
  | jumpIfNotEqual (reg : Byte)
deriving DecidableEq, Repr

/-- One entry of the decoder's static table (R94): the opcode byte, the mnemonic, the operand count `n(op)`, whether
the opcode is in `PC_SETTING` (R85), and the instruction made of the operand bytes (an operand the row does not declare
is not read; `build` ignores it). -/
structure OpcodeRow where
  opcode    : Byte
  mnemonic  : String
  operands  : Nat
  pcSetting : Bool
  build     : Byte → Byte → Instr

end Sys2Proof
end

