-- ==== Sys2Proof/Machine/Dispatch.lean ====
section
/-! DEFINITION. The dispatcher: one arm per instruction (spec R81's HANDLER, R94). -/

namespace Sys2Proof.Machine

def exec (i : Instr) (s : State) : Host.Outcome State Fault Refusal :=
  match i with
  | .halt => Sys2Proof.Machine.execHalt s
  | .loadImmediate reg imm => Sys2Proof.Machine.execLoadImmediate reg imm s
  | .printRegister reg => Sys2Proof.Machine.execPrintRegister reg s
  | .multiply regA regB => Sys2Proof.Machine.execMultiply regA regB s
  | .add regA regB => Sys2Proof.Machine.execAdd regA regB s
  | .push reg => Sys2Proof.Machine.execPush reg s
  | .pop reg => Sys2Proof.Machine.execPop reg s
  | .call reg => Sys2Proof.Machine.execCall reg s
  | .ret => Sys2Proof.Machine.execReturn s
  | .compare regA regB => Sys2Proof.Machine.execCompare regA regB s
  | .jump reg => Sys2Proof.Machine.execJump reg s
  | .jumpIfEqual reg => Sys2Proof.Machine.execJumpIfEqual reg s
  | .jumpIfNotEqual reg => Sys2Proof.Machine.execJumpIfNotEqual reg s

end Sys2Proof.Machine
end

