-- ==== Sys2Proof/Decode.lean ====
section
/-! DEFINITION. The opcode table, the decoder (total on any bytes, rejecting by name) and the encoder, from spec
30_encoding.md. Decoding is an exact match of all 8 bits of the opcode byte against the table (R68, R94); the table's
operand count gives the length (R72). -/

namespace Sys2Proof

/-- The opcode map (R67), with `PC_SETTING` (R85). -/
def opcodeTable : List OpcodeRow :=
  [ ⟨0x01, "HALT", 0, false, fun _ _ => .halt⟩,
    ⟨0x82, "LOAD_IMMEDIATE", 2, false, fun b1 b2 => .loadImmediate b1 b2⟩,
    ⟨0x47, "PRINT_REGISTER", 1, false, fun b1 _ => .printRegister b1⟩,
    ⟨0xA2, "MULTIPLY", 2, false, fun b1 b2 => .multiply b1 b2⟩,
    ⟨0xA0, "ADD", 2, false, fun b1 b2 => .add b1 b2⟩,
    ⟨0x45, "PUSH", 1, false, fun b1 _ => .push b1⟩,
    ⟨0x46, "POP", 1, false, fun b1 _ => .pop b1⟩,
    ⟨0x50, "CALL", 1, true, fun b1 _ => .call b1⟩,
    ⟨0x11, "RETURN", 0, true, fun _ _ => .ret⟩,
    ⟨0xA7, "COMPARE", 2, false, fun b1 b2 => .compare b1 b2⟩,
    ⟨0x54, "JUMP", 1, true, fun b1 _ => .jump b1⟩,
    ⟨0x55, "JUMP_IF_EQUAL", 1, true, fun b1 _ => .jumpIfEqual b1⟩,
    ⟨0x56, "JUMP_IF_NOT_EQUAL", 1, true, fun b1 _ => .jumpIfNotEqual b1⟩ ]

/-- Exact-match lookup of an opcode byte (R68): no answer for each of the 243 bytes outside the table (R73). -/
def lookup (op : Byte) : Option OpcodeRow := opcodeTable.find? fun row => row.opcode == op

/-- Why bytes are no instruction. -/
inductive DecodeError
  /-- There is no opcode byte. -/
  | noOpcode
  /-- The opcode byte is not in the table (R73). -/
  | unknownOpcode (op : Byte)
  /-- The bytes end before the operands the opcode declares (R71). -/
  | missingOperand (op : Byte)
deriving DecidableEq, Repr

/-- Reads one instruction from the front of a list of bytes, opcode first (R63), and gives the bytes after it. -/
def decode : List Byte → Except DecodeError (Instr × List Byte)
  | [] => .error .noOpcode
  | op :: rest =>
    match lookup op with
    | none => .error (.unknownOpcode op)
    | some row =>
      match row.operands, rest with
      | 0, tail => .ok (row.build 0 0, tail)
      | 1, b1 :: tail => .ok (row.build b1 0, tail)
      | 2, b1 :: b2 :: tail => .ok (row.build b1 b2, tail)
      | _, _ => .error (.missingOperand op)

/-- The opcode byte of an instruction, as R67's rows give it. -/
def Instr.opcode : Instr → Byte
  | .halt => 0x01
  | .loadImmediate _ _ => 0x82
  | .printRegister _ => 0x47
  | .multiply _ _ => 0xA2
  | .add _ _ => 0xA0
  | .push _ => 0x45
  | .pop _ => 0x46
  | .call _ => 0x50
  | .ret => 0x11
  | .compare _ _ => 0xA7
  | .jump _ => 0x54
  | .jumpIfEqual _ => 0x55
  | .jumpIfNotEqual _ => 0x56

/-- The operand bytes of an instruction, in increasing address order (R64). -/
def Instr.operandBytes : Instr → List Byte
  | .halt => []
  | .loadImmediate reg imm => [reg, imm]
  | .printRegister reg => [reg]
  | .multiply regA regB => [regA, regB]
  | .add regA regB => [regA, regB]
  | .push reg => [reg]
  | .pop reg => [reg]
  | .call reg => [reg]
  | .ret => []
  | .compare regA regB => [regA, regB]
  | .jump reg => [reg]
  | .jumpIfEqual reg => [reg]
  | .jumpIfNotEqual reg => [reg]

/-- The bytes of an instruction: the opcode, then its operands (R63, R64). -/
def encode (i : Instr) : List Byte := i.opcode :: i.operandBytes

/-- The instruction's handler writes `pc` itself (R85: the set `PC_SETTING`). -/
def Instr.pcSetting : Instr → Bool
  | .jump _ | .jumpIfEqual _ | .jumpIfNotEqual _ | .call _ | .ret => true
  | .halt | .loadImmediate _ _ | .printRegister _ | .multiply _ _ | .add _ _ | .push _ | .pop _ | .compare _ _ => false

/-- The operand byte that names register `r` (R69). -/
def regByte (r : Fin 8) : Byte := BitVec.ofNat 8 r.val

/-- The length in bytes of the longest instruction (R63). -/
def maxLength : Nat := 3

/-- The bytes of an instruction given as one number whose bit 0 is the least significant bit of the first byte and
whose bits from `nbits` up are zero: the first byte at the lowest address, up to the longest instruction. -/
def wordBytes (nbits w : Nat) : List Byte :=
  (List.range maxLength).map fun k => BitVec.ofNat 8 (w % 2 ^ nbits / 256 ^ k)

/-- What the decoder reads from the instruction whose bits are `w`. -/
def decodeTableWord (nbits w : Nat) : Option Instr :=
  match decode (wordBytes nbits w) with
  | .ok (i, _) => some i
  | .error _ => none

end Sys2Proof
end

