-- ==== Sys2Proof/Machine/Fetch.lean ====
section
/-! DEFINITION. Fetching and decoding one instruction from memory: the first half of the cycle (spec R81), each access
through `MemRead` in the order of the pseudocode. -/

namespace Sys2Proof.Machine

/-- A fault of the fetch: the opcode byte if it was fetched, and what was raised (R127, R128). -/
structure FetchFault where
  opcode : Option Byte
  raised : Raised
deriving DecidableEq, Repr

/-- The operand bytes `b1` at `a + 1` and `b2` at `a + 2`, exactly as many as the opcode declares (R71); an operand that
is not declared is not read and stands as 0, which the row's `build` ignores. -/
def State.fetchOperands (s : State) (n : Nat) : Except Raised (Byte × Byte) := do
  let b1 ← if n ≥ 1 then s.memRead ((s.pc : Int) + 1) .operandFetch else .ok 0
  let b2 ← if n = 2 then s.memRead ((s.pc : Int) + 2) .operandFetch else .ok 0
  return (b1, b2)

/-- The instruction at `pc`, or the first fault of its fetch: the opcode fetch (R82), the opcode (R83), the operand
fetch (R71), in this order (R131). -/
def State.fetch (s : State) : Except FetchFault Instr :=
  match s.memRead s.pc .fetch with
  | .error e => .error ⟨none, e⟩
  | .ok op =>
    match lookup op with
    | none => .error ⟨some op, unknownOpcodeError op⟩
    | some row =>
      match s.fetchOperands row.operands with
      | .error e => .error ⟨some op, e⟩
      | .ok (b1, b2) => .ok (row.build b1 b2)

end Sys2Proof.Machine
end

