-- ==== Sys2Proof/Machine/Step.lean ====
section
/-! DEFINITION. One step: one whole instruction, only in Running (spec R81, R92). `exec` itself does not ask for
Running (DESIGN CHOICE, log entry 9). -/

namespace Sys2Proof.Machine

/-- `Step()` (R81): fetch the instruction at `pc` and run it, or take the fetch's fault (R128). Outside Running there is
no transition (R92). -/
def step (s : State) : Host.Outcome State Fault Refusal :=
  match s.run with
  | .running =>
    match s.fetch with
    | .ok i => exec i s
    | .error f => .next (s.takeFault f.opcode f.raised)
  | .ready => .fault (.notRunning .ready)
  | .halted => .fault (.notRunning .halted)
  | .faulted => .fault (.notRunning .faulted)

/-- `s` with the instruction whose bits are `w` stored at `pc` and the block Running with no fault record, so that the
next step fetches and runs it. It stands for the host's load and start (R152; DESIGN CHOICE, log entry 3). -/
def State.withFetchWord (s : State) (nbits w : Nat) : State :=
  { s with mem := s.mem.writeBytes s.pc (wordBytes nbits w), run := .running, fault := none }

end Sys2Proof.Machine
end

