-- ==== Sys2Proof/Machine/HostInterface.lean ====
section
/-! DEFINITION. What the host may do to the block (spec R38, R152): load, start, step, status; and the host's own side,
which is outside the block but fixes the reset memory and the meaning of the output: the program file (R160, R161), the
rendering of output (R162) and the step ceiling of a harness (R163). -/

namespace Sys2Proof.Machine

/-! ## Requests to the block -/

/-- Load a memory image (R42, R152): the program bytes from address 0, 0 beyond them. Only in Ready, and only an image
that fits (R161). DEDUCED, log entry 19. -/
def State.load (s : State) (image : List Byte) : Option State :=
  if s.run = .ready ∧ image.length ≤ Config.memSize then some { s with mem := Memory.writeBytes [] 0 image } else none

/-- `start`: allowed only in Ready (R38). -/
def State.start (s : State) : Option State :=
  if s.run = .ready then some (s.setRun .running) else none

/-- `status`: the whole state, for inspection (R38, R152); it changes nothing. -/
def State.status (s : State) : State := s

/-- What the host can ask (R152). -/
inductive Request
  | load (image : List Byte)
  | start
  | step
  | status
deriving DecidableEq, Repr

/-- The block's state after a request, or no answer where the request is not allowed or makes no transition (R38, R92). -/
def State.request (s : State) : Request → Option State
  | .load image => s.load image
  | .start => s.start
  | .step =>
    match step s with
    | .next t => some t
    | .fault _ => none
    | .refused _ => none
  | .status => some s.status

/-- A run has ended (R90). -/
def State.ended (s : State) : Bool :=
  match s.run with
  | .halted => true
  | .faulted => true
  | .ready => false
  | .running => false

/-! ## The loader -/

/-- The value of one binary digit. -/
def binaryDigit (c : Char) : Option Nat :=
  if c = '0' then some 0 else if c = '1' then some 1 else none

/-- The number whose binary digits, most significant first, are the first `n` characters of a line, added to the digits
already read. -/
def binaryNumber : Nat → Nat → List Char → Option Nat
  | 0, acc, _ => some acc
  | _ + 1, _, [] => none
  | n + 1, acc, c :: cs =>
    match binaryDigit c with
    | some d => binaryNumber n (2 * acc + d) cs
    | none => none

/-- The byte of a line that is not a comment: its first 8 characters (R160); no byte where they are not 8 binary
digits, an empty or short line among them (R161). -/
def lineByte (line : List Char) : Option Byte := (binaryNumber 8 0 line).map (BitVec.ofNat 8)

/-- The 8 binary digits of a byte, most significant first: the line that stands for it (R80, R160). -/
def byteLine (v : Byte) : List Char := (List.range 8).map fun k => if v.getLsbD (7 - k) then '1' else '0'

/-- A line beginning with `#` is a comment (R160), whatever its length (DESIGN CHOICE, log entry 17). -/
def isComment (line : List Char) : Bool := line.head? == some '#'

/-- The bytes of a file's lines in order, comments skipped; no answer if a line is refused (R161). -/
def programBytes : List (List Char) → Option (List Byte)
  | [] => some []
  | line :: rest =>
    if isComment line then programBytes rest
    else
      match lineByte line, programBytes rest with
      | some b, some bs => some (b :: bs)
      | _, _ => none

/-- The memory image of a program file, refused above 256 byte lines (R160, R161). -/
def loadProgram (lines : List (List Char)) : Option (List Byte) :=
  match programBytes lines with
  | some bs => if bs.length ≤ Config.memSize then some bs else none
  | none => none

/-- The state in which a run of a program file begins: reset, load, start (R150). -/
def State.boot (initRegs : Fin 7 → Byte) (initFl : Byte) (lines : List (List Char)) : Option State :=
  match loadProgram lines with
  | none => none
  | some image =>
    match (State.resetWith initRegs initFl).load image with
    | none => none
    | some s => s.start

/-! ## Output and the harness -/

/-- The line the host shows for an emitted byte: its decimal digits, no leading zeros (R162). -/
def renderByte (v : Byte) : List Char := Nat.toDigits 10 v.toNat

/-- The lines the host shows for the output trace, in the order emitted (R162). -/
def renderOut (s : State) : List (List Char) := s.out.map renderByte

/-- What a harness reports (R163). -/
inductive HarnessResult
  /-- The run ended, Halted or Faulted, in this state (R90). -/
  | ended (s : State)
  /-- The run is still Running after the steps allowed; the block's state is as it is. -/
  | outOfFuel (s : State)
  /-- The block is still in Ready: no run was started (DESIGN CHOICE, log entry 18). -/
  | notStarted (s : State)
deriving DecidableEq, Repr

/-- What the harness reports of a state it stops at. -/
def harnessReport (s : State) : HarnessResult :=
  match s.run with
  | .halted => .ended s
  | .faulted => .ended s
  | .running => .outOfFuel s
  | .ready => .notStarted s

/-- At most `fuel` steps (R91, R163): `step` while Running (R38). -/
def runWithFuel : Nat → State → HarnessResult
  | 0, s => harnessReport s
  | fuel + 1, s =>
    match step s with
    | .next t => runWithFuel fuel t
    | .fault _ => harnessReport s
    | .refused _ => harnessReport s

end Sys2Proof.Machine
end

