-- ==== Sys2Proof/Machine/Assembler.lean ====
section
/-! DEFINITION. The spec's own assembly syntax (30_encoding.md R77 to R79): one instruction given as its mnemonic and its
operands, each a list of characters, already split at the space and the comma (DESIGN CHOICE, log entry 22). It is no
behaviour of the block. -/

namespace Sys2Proof.Machine

/-- The long mnemonic of an opcode (R77) and the short one R78 accepts for it. -/
structure MnemonicRow where
  opcode : Byte
  long   : List Char
  short  : List Char
deriving DecidableEq, Repr

/-- The mnemonics of R77 with their aliases of R78. -/
def mnemonicTable : List MnemonicRow :=
  [ ⟨0x01, ['H', 'A', 'L', 'T'], ['H', 'L', 'T']⟩,
    ⟨0x82, ['L', 'O', 'A', 'D', '_', 'I', 'M', 'M', 'E', 'D', 'I', 'A', 'T', 'E'], ['L', 'D', 'I']⟩,
    ⟨0x47, ['P', 'R', 'I', 'N', 'T', '_', 'R', 'E', 'G', 'I', 'S', 'T', 'E', 'R'], ['P', 'R', 'N']⟩,
    ⟨0xA2, ['M', 'U', 'L', 'T', 'I', 'P', 'L', 'Y'], ['M', 'U', 'L']⟩,
    ⟨0xA0, ['A', 'D', 'D'], ['A', 'D', 'D']⟩,
    ⟨0x45, ['P', 'U', 'S', 'H'], ['P', 'U', 'S', 'H']⟩,
    ⟨0x46, ['P', 'O', 'P'], ['P', 'O', 'P']⟩,
    ⟨0x50, ['C', 'A', 'L', 'L'], ['C', 'A', 'L', 'L']⟩,
    ⟨0x11, ['R', 'E', 'T', 'U', 'R', 'N'], ['R', 'E', 'T']⟩,
    ⟨0xA7, ['C', 'O', 'M', 'P', 'A', 'R', 'E'], ['C', 'M', 'P']⟩,
    ⟨0x54, ['J', 'U', 'M', 'P'], ['J', 'M', 'P']⟩,
    ⟨0x55, ['J', 'U', 'M', 'P', '_', 'I', 'F', '_', 'E', 'Q', 'U', 'A', 'L'], ['J', 'E', 'Q']⟩,
    ⟨0x56, ['J', 'U', 'M', 'P', '_', 'I', 'F', '_', 'N', 'O', 'T', '_', 'E', 'Q', 'U', 'A', 'L'], ['J', 'N', 'E']⟩ ]

/-- `register := "r0" | … | "r7" | "SP"` (R77). -/
def parseRegister (text : List Char) : Option Byte :=
  if text = ['S', 'P'] then some (regByte spReg)
  else ((List.finRange 8).find? fun r => decide (text = ['r', Nat.digitChar r.val])).map regByte

/-- The value of a decimal digit. -/
def decimalDigit (c : Char) : Option Nat := if c.isDigit then some (c.toNat - '0'.toNat) else none

/-- The value of a hexadecimal digit, capitals only (DESIGN CHOICE, log entry 22). -/
def hexDigit (c : Char) : Option Nat :=
  if c.isDigit then some (c.toNat - '0'.toNat)
  else if 'A' ≤ c ∧ c ≤ 'F' then some (c.toNat - 'A'.toNat + 10) else none

/-- The number whose decimal digits follow those already read. -/
def decimalNumber : Nat → List Char → Option Nat
  | acc, [] => some acc
  | acc, c :: cs =>
    match decimalDigit c with
    | some d => decimalNumber (10 * acc + d) cs
    | none => none

/-- `immediate := decimal 0..255 | "0x" hex 00..FF | "0b" binary of 8 digits` (R77). A decimal may have any number of
leading zeros (DESIGN CHOICE, log entry 22). -/
def parseImmediate (text : List Char) : Option Byte :=
  match text with
  | [] => none
  | '0' :: 'x' :: [h, l] =>
    match hexDigit h, hexDigit l with
    | some a, some b => some (BitVec.ofNat 8 (16 * a + b))
    | _, _ => none
  | '0' :: 'b' :: digits => if digits.length = 8 then lineByte digits else none
  | digits =>
    match decimalNumber 0 digits with
    | some n => if n ≤ 255 then some (BitVec.ofNat 8 n) else none
    | none => none

/-- One instruction from its mnemonic, long or short, and its operands (R77, R78). Only LOAD_IMMEDIATE's second operand
is an immediate (R70). -/
def assemble (mnemonic : List Char) (operands : List (List Char)) : Option Instr :=
  match mnemonicTable.find? fun m => decide (m.long = mnemonic ∨ m.short = mnemonic) with
  | none => none
  | some m =>
    match lookup m.opcode with
    | none => none
    | some row =>
      match row.operands, operands with
      | 0, [] => some (row.build 0 0)
      | 1, [a] => (parseRegister a).map fun b1 => row.build b1 0
      | 2, [a, b] =>
        match parseRegister a, (if m.opcode = 0x82 then parseImmediate b else parseRegister b) with
        | some b1, some b2 => some (row.build b1 b2)
        | _, _ => none
      | _, _ => none

/-- The text of a register operand (R77). -/
def registerText (b : Byte) : List Char := ['r', Nat.digitChar b.toNat]

/-- The operands of an instruction as text, an immediate in decimal (R77). -/
def operandTexts : Instr → List (List Char)
  | .halt => []
  | .loadImmediate reg imm => [registerText reg, renderByte imm]
  | .printRegister reg => [registerText reg]
  | .multiply regA regB => [registerText regA, registerText regB]
  | .add regA regB => [registerText regA, registerText regB]
  | .push reg => [registerText reg]
  | .pop reg => [registerText reg]
  | .call reg => [registerText reg]
  | .ret => []
  | .compare regA regB => [registerText regA, registerText regB]
  | .jump reg => [registerText reg]
  | .jumpIfEqual reg => [registerText reg]
  | .jumpIfNotEqual reg => [registerText reg]

end Sys2Proof.Machine
end

