-- ==== Sys2Proof/WellFormed.lean ====
section
/-! DEFINITION. Well-formed instructions: every register operand names one of the eight registers (spec R69). An
ill-formed instruction still has a meaning: it raises RegisterIndexError. -/

namespace Sys2Proof

/-- The register operand bytes of an instruction, in operand order (R64). LOAD_IMMEDIATE's second operand is an
immediate, not a register (R70). -/
def Instr.registerOperands : Instr → List Byte
  | .halt => []
  | .loadImmediate reg _ => [reg]
  | .printRegister reg => [reg]
  | .multiply regA regB => [regA, regB]
  | .add regA regB => [regA, regB]
  | .push reg => [reg]
  | .pop reg => [reg]
  | .call reg => [reg]
  | .ret => []
  | .compare regA regB => [regA, regB]
  | .jump reg => [reg]
  | .jumpIfEqual reg => [reg]
  | .jumpIfNotEqual reg => [reg]

/-- A register byte names a register if it is in 0..7 (R69). -/
def namesRegister (b : Byte) : Bool := decide (b.toNat ≤ 7)

/-- Every register operand names a register. -/
def Instr.wellFormed (i : Instr) : Bool := i.registerOperands.all namesRegister

end Sys2Proof
end

