-- ==== Sys2Proof/Safety.lean ====
section
/-! DEFINITION. The terms the claims use: what a fault leaves, what a legal fault record is, the invariant of the block,
and what an instruction leaves alone. -/

namespace Sys2Proof

/-! ## What an instruction may do -/

/-- The contexts in which an instruction, once fetched, can fault (R129): its register operands and its stack or return
address. -/
def Instr.faultContexts : Instr → List Machine.FaultContext
  | .halt => []
  | .loadImmediate _ _ => [.decode]
  | .printRegister _ => [.decode]
  | .multiply _ _ => [.decode]
  | .add _ _ => [.decode]
  | .push _ => [.decode, .stackPush]
  | .pop _ => [.decode, .stackPop]
  | .call _ => [.decode, .callPush, .callReturnAddress]
  | .ret => [.ret]
  | .compare _ _ => [.decode]
  | .jump _ => [.decode]
  | .jumpIfEqual _ => [.decode]
  | .jumpIfNotEqual _ => [.decode]

/-- The general registers an instruction may change, as R23 lists them. -/
def Instr.mayWrite : Instr → Fin 8 → Prop
  | .loadImmediate b _, r => b = regByte r
  | .multiply a _, r => a = regByte r
  | .add a _, r => a = regByte r
  | .pop b, r => b = regByte r ∨ r = Machine.spReg
  | .push _, r => r = Machine.spReg
  | .call _, r => r = Machine.spReg
  | .ret, r => r = Machine.spReg
  | .halt, _ => False
  | .printRegister _, _ => False
  | .compare _ _, _ => False
  | .jump _, _ => False
  | .jumpIfEqual _, _ => False
  | .jumpIfNotEqual _, _ => False

end Sys2Proof

namespace Sys2Proof.Machine

/-! ## Faults -/

/-- `s` at the end of the run with fault record `r`, everything else as it was (spec R128, R130). -/
def State.faultedWith (s : State) (r : FaultRecord) : State := { s with run := .faulted, fault := some r }

/-- What the table of R127 says of a record with its context: the kind, the value, and which opcode was fetched (R129).
No instruction raises a record with context Alu (R98). -/
def FaultRecord.followsTable (r : FaultRecord) : Prop :=
  match r.ctx with
  | .fetch => r.kind = .addressError ∧ r.value = 256 ∧ r.opcode = none ∧ r.pc = 256
  | .operandFetch => r.kind = .addressError ∧ r.value = 256 ∧ r.opcode.isSome = true ∧ (r.pc = 254 ∨ r.pc = 255)
  | .stackPush => r.kind = .addressError ∧ r.value = -1 ∧ r.opcode = some 0x45
  | .stackPop => r.kind = .addressError ∧ r.value = 256 ∧ r.opcode = some 0x46
  | .callPush => r.kind = .addressError ∧ r.value = -1 ∧ r.opcode = some 0x50
  | .callReturnAddress => r.kind = .addressError ∧ r.value = 256 ∧ r.opcode = some 0x50 ∧ r.pc = 254
  | .ret => r.kind = .addressError ∧ r.value = 256 ∧ r.opcode = some 0x11
  | .decode => ∃ op : Byte, r.opcode = some op ∧
      (r.kind = .unknownOpcodeError ∧ r.value = op.toNat ∧ lookup op = none ∨
        r.kind = .registerIndexError ∧ 7 < r.value ∧ r.value ≤ 255 ∧ (lookup op).isSome = true)
  | .alu => False

/-- With this opcode at address `a`, a step faults at its operand fetch, at address 256 (R71, R127). -/
def OperandFetchFault (op : Byte) (a : Nat) : Prop :=
  ∀ s : State, s.run = .running → s.pc = a → s.mem.read a = op →
    step s = .next (s.faultedWith ⟨.addressError, a, some op, 256, .operandFetch⟩)

/-- In every state, the instruction, whose opcode byte is `op`, faults because the operand byte `b` names no register
(R69, R127). -/
def RegisterIndexFault (op : Byte) (i : Instr) (b : Byte) : Prop :=
  ∀ s : State, exec i s = .next (s.faultedWith ⟨.registerIndexError, s.pc, some op, b.toNat, .decode⟩)

/-! ## Frames -/

/-- Every byte of memory reads as before. -/
def MemorySame (s t : State) : Prop := ∀ a : Nat, t.mem.read a = s.mem.read a

/-- Every byte of memory reads as before, but for the one at `b`. -/
def MemorySameBut (b : Nat) (s t : State) : Prop := ∀ a : Nat, a ≠ b → t.mem.read a = s.mem.read a

/-- Every general register reads as before. -/
def RegsSame (s t : State) : Prop := ∀ i : Fin 8, t.readReg i = s.readReg i

/-- Every general register reads as before, but for `r`. -/
def RegsSameBut (r : Fin 8) (s t : State) : Prop := ∀ i : Fin 8, i ≠ r → t.readReg i = s.readReg i

/-- The run goes on as it was: run state and fault record unchanged. -/
def RunSame (s t : State) : Prop := t.run = s.run ∧ t.fault = s.fault

/-! ## Rules of one shape -/

/-- The whole rule of an ALU instruction (R99, R100): its encoding, its result `f` modulo 256 in the first register and
nothing else changed, and its faults, the first register operand checked first. -/
def AluRule (mk : Byte → Byte → Instr) (op : Byte) (f : Nat → Nat → Nat) : Prop :=
  (∀ b1 b2, encode (mk b1 b2) = [op, b1, b2]) ∧
  (∀ (s : State) (ra rb : Fin 8), ∃ t, exec (mk (regByte ra) (regByte rb)) s = .next t ∧
    (t.readReg ra).toNat = f (s.readReg ra).toNat (s.readReg rb).toNat % 256 ∧ RegsSameBut ra s t ∧
    t.pc = s.pc + 3 ∧ t.FL = s.FL ∧ MemorySame s t ∧ t.out = s.out ∧ RunSame s t) ∧
  OperandFetchFault op 254 ∧ OperandFetchFault op 255 ∧
  (∀ b1 b2, 7 < b1.toNat → RegisterIndexFault op (mk b1 b2) b1) ∧
  (∀ ra b2, 7 < b2.toNat → RegisterIndexFault op (mk (regByte ra) b2) b2)

/-- The whole rule of a branch (R119, R120, R121): its encoding, `pc` at the register's value when `taken` and else past
the instruction, nothing else changed, and its faults, which do not depend on `taken`. -/
def BranchRule (mk : Byte → Instr) (op : Byte) (taken : State → Bool) : Prop :=
  (∀ b, encode (mk b) = [op, b]) ∧
  (∀ (s : State) (r : Fin 8), ∃ t, exec (mk (regByte r)) s = .next t ∧
    (taken s = true → t.pc = (s.readReg r).toNat) ∧ (taken s = false → t.pc = s.pc + 2) ∧
    RegsSame s t ∧ t.FL = s.FL ∧ MemorySame s t ∧ t.out = s.out ∧ RunSame s t) ∧
  OperandFetchFault op 255 ∧
  (∀ b, 7 < b.toNat → RegisterIndexFault op (mk b) b)

/-! ## Invariants -/

/-- What holds of every state a run reaches. -/
structure State.Inv (s : State) : Prop where
  /-- `pc` is in 0..256 (R25). -/
  pcRange : s.pc ≤ 256
  /-- Memory keeps its canonical form, so it lists only addresses 0..255. -/
  memCanonical : s.mem.wf = true
  /-- There is a fault record exactly in Faulted (R32). -/
  faultIffFaulted : s.fault.isSome = true ↔ s.run = .faulted
  /-- The record names the instruction at `pc` (R130) and follows the table (R127). -/
  recordLegal : ∀ r, s.fault = some r → r.pc = s.pc ∧ r.followsTable

/-- Exactly one of the Equal, Greater-than and Less-than bits is set (R43, R117). -/
def OneFlagSet (fl : Byte) : Prop :=
  (flagE fl = true ∧ flagG fl = false ∧ flagL fl = false) ∨
    (flagE fl = false ∧ flagG fl = true ∧ flagL fl = false) ∨
    (flagE fl = false ∧ flagG fl = false ∧ flagL fl = true)

/-! ## Bytes and runs -/

/-- The bytes of the memory at `a`, as many as an instruction can have, less those past address 255 (R45, R63). -/
def bytesAt (m : Memory) (a : Nat) : List Byte :=
  ((List.range maxLength).map (a + ·)).filterMap fun k => if k < Config.memSize then some (m.read k) else none

/-- A byte that R73 lists as no opcode. -/
def unlistedOpcode (op : Byte) : Prop :=
  let n := op.toNat
  n = 0 ∨ (2 ≤ n ∧ n ≤ 16) ∨ (18 ≤ n ∧ n ≤ 68) ∨ (72 ≤ n ∧ n ≤ 79) ∨ (81 ≤ n ∧ n ≤ 83) ∨ (87 ≤ n ∧ n ≤ 129) ∨
    (131 ≤ n ∧ n ≤ 159) ∨ n = 161 ∨ (163 ≤ n ∧ n ≤ 166) ∨ (168 ≤ n ∧ n ≤ 255)

/-- With `v` stored at `a`, every fetch from `a` uses it (R60): as the opcode of a step at `a`, whatever byte it is, and
as the first or second operand of the instruction one or two addresses below. -/
def FetchesUse (t : State) (a : Nat) (v : Byte) : Prop :=
  t.memRead a .fetch = .ok v ∧
  (v = 0x01 → ∃ u, step (t.setPc a) = .next u ∧ u.run = .halted ∧ u.pc = a) ∧
  (unlistedOpcode v → step (t.setPc a) =
    .next ((t.setPc a).faultedWith ⟨.unknownOpcodeError, a, some v, v.toNat, .decode⟩)) ∧
  (∀ row : OpcodeRow, lookup v = some row →
    (a + row.operands ≤ 255 →
      step (t.setPc a) = exec (row.build (t.mem.read (a + 1)) (t.mem.read (a + 2))) (t.setPc a)) ∧
    (255 < a + row.operands →
      step (t.setPc a) = .next ((t.setPc a).faultedWith ⟨.addressError, a, some v, 256, .operandFetch⟩))) ∧
  (∀ (row : OpcodeRow) (p : Nat), p + 1 = a → lookup (t.mem.read p) = some row → 1 ≤ row.operands →
    p + row.operands ≤ 255 → step (t.setPc p) = exec (row.build v (t.mem.read (p + 2))) (t.setPc p)) ∧
  (∀ (row : OpcodeRow) (p : Nat), p + 2 = a → lookup (t.mem.read p) = some row → row.operands = 2 →
    step (t.setPc p) = exec (row.build (t.mem.read (p + 1)) v) (t.setPc p))

/-- A safe end of a run: it ended Halted, on the HALT at `pc`, with no fault (R90, R95). -/
def State.haltedNormally (s : State) : Prop := s.run = .halted ∧ s.fault = none ∧ s.pc < 256 ∧ s.mem.read s.pc = 0x01

end Sys2Proof.Machine
end

