-- ==== Sys2Proof/Certificates/Slice0/Obligations.lean ====
section
/-! DEFINITION. The statements for the provers. Each docstring names the rule of the spec it formalises. A register
operand that names a register is written `regByte r`; a byte above 7 has its own clauses. -/

open Sys2Proof Sys2Proof.Machine

/-! ## Encoding -/

/-- The 13 opcode bytes of R67, with their operand counts, decode to the instructions of their rows. -/
def Obligations.OpcodeMapWordsDecode : Prop :=
  ∀ b1 b2 : Byte,
    decode [0x01] = .ok (.halt, []) ∧ decode [0x82, b1, b2] = .ok (.loadImmediate b1 b2, []) ∧
    decode [0x47, b1] = .ok (.printRegister b1, []) ∧ decode [0xA2, b1, b2] = .ok (.multiply b1 b2, []) ∧
    decode [0xA0, b1, b2] = .ok (.add b1 b2, []) ∧ decode [0x45, b1] = .ok (.push b1, []) ∧
    decode [0x46, b1] = .ok (.pop b1, []) ∧ decode [0x50, b1] = .ok (.call b1, []) ∧
    decode [0x11] = .ok (.ret, []) ∧ decode [0xA7, b1, b2] = .ok (.compare b1 b2, []) ∧
    decode [0x54, b1] = .ok (.jump b1, []) ∧ decode [0x55, b1] = .ok (.jumpIfEqual b1, []) ∧
    decode [0x56, b1] = .ok (.jumpIfNotEqual b1, [])

/-- Decoding an encoded instruction gives it back with the bytes after it, for every instruction at every operand value,
and bytes that decode are the encoding of what they decode to (R63, R64, R68, R72). -/
def Obligations.DecodeAndEncodeAgree : Prop :=
  (∀ (i : Instr) (rest : List Byte), decode (encode i ++ rest) = .ok (i, rest)) ∧
  (∀ (bytes rest : List Byte) (i : Instr), decode bytes = .ok (i, rest) → bytes = encode i ++ rest)

/-- R65, which the spec marks as derived row by row: the opcode's two high bits are the operand count, for every row
that lookup finds and for every instruction's encoding. -/
def Obligations.OpcodeHighBitsGiveTheOperandCount : Prop :=
  (∀ (op : Byte) (row : OpcodeRow), lookup op = some row → row.operands = op.toNat / 64) ∧
  (∀ i : Instr, (encode i).length = 1 + i.opcode.toNat / 64)

/-- R77 to R79 (the spec's decision D19, with log entry 22): every well-formed instruction is assembled from the text of
its operands under the long and the short mnemonic of its opcode, and those mnemonics assemble to no other opcode. -/
def Obligations.AssemblyNamesEachInstruction : Prop :=
  (∀ i : Instr, i.wellFormed = true → ∃ m ∈ mnemonicTable, m.opcode = i.opcode ∧
    assemble m.long (operandTexts i) = some i ∧ assemble m.short (operandTexts i) = some i) ∧
  (∀ m ∈ mnemonicTable, ∀ (operands : List (List Char)) (i : Instr),
    assemble m.long operands = some i ∨ assemble m.short operands = some i → i.opcode = m.opcode)

/-! ## The cycle -/

/-- R81: when the bytes at `pc` decode to an instruction, a step is that instruction, run in that state. -/
def Obligations.StepRunsTheDecodedInstruction : Prop :=
  ∀ (s : State) (i : Instr) (rest : List Byte), s.run = .running → decode (bytesAt s.mem s.pc) = .ok (i, rest) →
    step s = exec i s

/-- R82. The fetch outside memory, and that 256 is the only `pc` outside 0..255 at a fetch (under the invariant that
every step keeps). -/
def Obligations.FetchOutsideMemoryFaults : Prop :=
  (∀ s : State, s.run = .running → s.pc = 256 → step s = .next (s.faultedWith ⟨.addressError, 256, none, 256, .fetch⟩)) ∧
  (∀ s : State, s.Inv → s.run = .running → 255 < s.pc → s.pc = 256)

/-- R73, R83: the 243 bytes R73 lists are those with no row in the table, and fetching one faults with everything else
as it was. -/
def Obligations.UnknownOpcodesFaultPrecisely : Prop :=
  (∀ op : Byte, unlistedOpcode op ↔ lookup op = none) ∧
  ((List.range 256).filter fun n => (lookup (BitVec.ofNat 8 n)).isNone).length = 243 ∧
  (∀ (s : State) (op : Byte), s.run = .running → s.pc ≤ 255 → s.mem.read s.pc = op → unlistedOpcode op →
    step s = .next (s.faultedWith ⟨.unknownOpcodeError, s.pc, some op, op.toNat, .decode⟩))

/-- R71: exactly the declared operand bytes are read, from `pc + 1` and `pc + 2`; where the last one would lie past
address 255 the fault is at 256. A row's `build` ignores the bytes it does not declare, so they are free here. -/
def Obligations.OperandFetchReadsDeclaredBytes : Prop :=
  ∀ (s : State) (row : OpcodeRow), s.run = .running → s.pc ≤ 255 → lookup (s.mem.read s.pc) = some row →
    (s.pc + row.operands ≤ 255 → ∀ b1 b2 : Byte, (1 ≤ row.operands → b1 = s.mem.read (s.pc + 1)) →
      (2 ≤ row.operands → b2 = s.mem.read (s.pc + 2)) → step s = exec (row.build b1 b2) s) ∧
    (255 < s.pc + row.operands →
      step s = .next (s.faultedWith ⟨.addressError, s.pc, some (s.mem.read s.pc), 256, .operandFetch⟩))

/-- R92: outside Running a step makes no transition. -/
def Obligations.NoTransitionOutsideRunning : Prop :=
  ∀ s t : State, s.run ≠ .running → step s ≠ .next t

/-- R157, which the spec marks as derived: in Running a step is always possible. -/
def Obligations.RunningNeverSticks : Prop :=
  ∀ s : State, s.run = .running → ∃ t, step s = .next t

/-- R84 and R28 (the last sentence of R84 is the spec's own inference): an instruction that is neither PC-setting nor
HALT, run to a state that is not Faulted, leaves `pc` just past itself, with no wrap; no such advance is by 1. -/
def Obligations.GenericAdvanceIsTheLength : Prop :=
  ∀ (i : Instr) (s t : State), exec i s = .next t → t.run ≠ .faulted → i.pcSetting = false → i ≠ .halt →
    t.pc = s.pc + (encode i).length ∧ t.pc ≠ s.pc + 1

/-! ## The dispatcher's own instructions -/

/-- R87. -/
def Obligations.HaltStopsAtItsOwnAddress : Prop :=
  encode .halt = [0x01] ∧
  (∀ s : State, ∃ t, exec .halt s = .next t ∧ t.run = .halted ∧ t.pc = s.pc ∧ RegsSame s t ∧ t.FL = s.FL ∧
    MemorySame s t ∧ t.out = s.out ∧ t.fault = s.fault) ∧
  (∀ s : State, s.run = .running → s.pc ≤ 255 → s.mem.read s.pc = 0x01 → step s = exec .halt s) ∧
  (∀ s t : State, s.run = .halted → step s ≠ .next t)

/-- R88. The kind of the register fault is the spec's decision D6, as R88 states it. -/
def Obligations.LoadImmediateWritesTheByte : Prop :=
  (∀ b1 b2, encode (.loadImmediate b1 b2) = [0x82, b1, b2]) ∧
  (∀ (s : State) (r : Fin 8) (v : Byte), ∃ t, exec (.loadImmediate (regByte r) v) s = .next t ∧ t.readReg r = v ∧
    RegsSameBut r s t ∧ t.pc = s.pc + 3 ∧ t.FL = s.FL ∧ MemorySame s t ∧ t.out = s.out ∧ RunSame s t) ∧
  OperandFetchFault 0x82 254 ∧ OperandFetchFault 0x82 255 ∧
  (∀ b1 v, 7 < b1.toNat → RegisterIndexFault 0x82 (.loadImmediate b1 v) b1)

/-- R89. The kind of the register fault is the spec's decision D6, as R89 states it. -/
def Obligations.PrintRegisterEmitsTheByte : Prop :=
  (∀ b, encode (.printRegister b) = [0x47, b]) ∧
  (∀ (s : State) (r : Fin 8), ∃ t, exec (.printRegister (regByte r)) s = .next t ∧ t.out = s.out ++ [s.readReg r] ∧
    RegsSame s t ∧ t.pc = s.pc + 2 ∧ t.FL = s.FL ∧ MemorySame s t ∧ RunSame s t) ∧
  OperandFetchFault 0x47 255 ∧
  (∀ b, 7 < b.toNat → RegisterIndexFault 0x47 (.printRegister b) b)

/-! ## ALU -/

/-- R99 and R100, each whole: encoding, result modulo 256, frame and faults. -/
def Obligations.AddAndMultiplyWrapInPlace : Prop :=
  AluRule .add 0xA0 (fun p q => p + q) ∧ AluRule .multiply 0xA2 (fun p q => p * q)

/-- R101: the ALU's two operations give the exact result modulo 256, for every pair of bytes, and never fault. -/
def Obligations.AluIsExactModulo256 : Prop :=
  ∀ a b : Byte, ∃ v w, alu 0xA0 a b = .ok v ∧ v.toNat = (a.toNat + b.toNat) % 256 ∧
    alu 0xA2 a b = .ok w ∧ w.toNat = (a.toNat * b.toNat) % 256

/-- R98: every other select is UnsupportedOperationError when the ALU is driven directly, and no step raises it. -/
def Obligations.UnsupportedOperationOnlyDirectly : Prop :=
  (∀ op a b : Byte, op ≠ 0xA0 → op ≠ 0xA2 → alu op a b = .error ⟨.unsupportedOperationError, op.toNat, .alu⟩) ∧
  (∀ (s t : State) (r : FaultRecord), step s = .next t → t.run = .faulted → t.fault = some r →
    r.kind ≠ .unsupportedOperationError)

/-! ## Stack and call -/

/-- R109. `PUSH r7` stores the decremented SP, as R109 states it (the spec's decision D10). -/
def Obligations.PushDecrementsThenStores : Prop :=
  (∀ b, encode (.push b) = [0x45, b]) ∧
  (∀ (s : State) (r : Fin 8), s.mem.wf = true → s.sp.toNat ≠ 0 → ∃ t, exec (.push (regByte r)) s = .next t ∧
    t.sp.toNat = s.sp.toNat - 1 ∧ t.mem.read (s.sp.toNat - 1) = (if r = spReg then t.sp else s.readReg r) ∧
    MemorySameBut (s.sp.toNat - 1) s t ∧ RegsSameBut spReg s t ∧ t.pc = s.pc + 2 ∧ t.FL = s.FL ∧ t.out = s.out ∧
    RunSame s t) ∧
  (∀ (s : State) (r : Fin 8), s.sp.toNat = 0 →
    exec (.push (regByte r)) s = .next (s.faultedWith ⟨.addressError, s.pc, some 0x45, -1, .stackPush⟩)) ∧
  OperandFetchFault 0x45 255 ∧
  (∀ b, 7 < b.toNat → RegisterIndexFault 0x45 (.push b) b)

/-- POP (R110; the order with `r7` is the spec's decision D10). Where the rules about `POP r7` contradict each other, SP =
255 and the byte there below 255, the statement gives both outcomes, R108's and D8's fault and R110's completion: which one
is the free value of log entry 23. -/
def Obligations.PopLoadsThenIncrements : Prop :=
  (∀ b, encode (.pop b) = [0x46, b]) ∧
  (∀ (s : State) (r : Fin 8), r ≠ spReg → s.sp.toNat < 255 → ∃ t, exec (.pop (regByte r)) s = .next t ∧
    t.readReg r = s.mem.read s.sp.toNat ∧ t.sp.toNat = s.sp.toNat + 1 ∧
    (∀ i, i ≠ r → i ≠ spReg → t.readReg i = s.readReg i) ∧ t.pc = s.pc + 2 ∧ t.FL = s.FL ∧ MemorySame s t ∧
    t.out = s.out ∧ RunSame s t) ∧
  (∀ s : State, (s.mem.read s.sp.toNat).toNat < 255 → ∃ t, exec (.pop (regByte spReg)) s =
      (if s.sp.toNat = 255 ∧ Config.popR7AtTopFaults = true then
        .next (s.faultedWith ⟨.addressError, s.pc, some 0x46, 256, .stackPop⟩) else .next t) ∧
    t.sp.toNat = (s.mem.read s.sp.toNat).toNat + 1 ∧ RegsSameBut spReg s t ∧ t.pc = s.pc + 2 ∧ t.FL = s.FL ∧
    MemorySame s t ∧ t.out = s.out ∧ RunSame s t) ∧
  (∀ (s : State) (r : Fin 8), r ≠ spReg → s.sp.toNat = 255 →
    exec (.pop (regByte r)) s = .next (s.faultedWith ⟨.addressError, s.pc, some 0x46, 256, .stackPop⟩)) ∧
  (∀ s : State, (s.mem.read s.sp.toNat).toNat = 255 →
    exec (.pop (regByte spReg)) s = .next (s.faultedWith ⟨.addressError, s.pc, some 0x46, 256, .stackPop⟩)) ∧
  OperandFetchFault 0x46 255 ∧
  (∀ b, 7 < b.toNat → RegisterIndexFault 0x46 (.pop b) b)

/-- R111. `CALL r7` jumps to the decremented SP, as R111 states it (the spec's decision D10); the SP bound comes before
the return-address bound. -/
def Obligations.CallStoresReturnAddressAndJumps : Prop :=
  (∀ b, encode (.call b) = [0x50, b]) ∧
  (∀ (s : State) (r : Fin 8), s.mem.wf = true → s.sp.toNat ≠ 0 → s.pc + 2 ≤ 255 →
    ∃ t, exec (.call (regByte r)) s = .next t ∧ t.sp.toNat = s.sp.toNat - 1 ∧
      (t.mem.read (s.sp.toNat - 1)).toNat = s.pc + 2 ∧ MemorySameBut (s.sp.toNat - 1) s t ∧
      t.pc = (if r = spReg then t.sp else s.readReg r).toNat ∧ RegsSameBut spReg s t ∧ t.FL = s.FL ∧ t.out = s.out ∧
      RunSame s t) ∧
  (∀ (s : State) (r : Fin 8), s.sp.toNat = 0 →
    exec (.call (regByte r)) s = .next (s.faultedWith ⟨.addressError, s.pc, some 0x50, -1, .callPush⟩)) ∧
  (∀ (s : State) (r : Fin 8), s.sp.toNat ≠ 0 → s.pc = 254 →
    exec (.call (regByte r)) s = .next (s.faultedWith ⟨.addressError, 254, some 0x50, 256, .callReturnAddress⟩)) ∧
  OperandFetchFault 0x50 255 ∧
  (∀ b, 7 < b.toNat → RegisterIndexFault 0x50 (.call b) b)

/-- R113. -/
def Obligations.ReturnJumpsToThePoppedByte : Prop :=
  encode .ret = [0x11] ∧
  (∀ s : State, s.sp.toNat < 255 → ∃ t, exec .ret s = .next t ∧ t.pc = (s.mem.read s.sp.toNat).toNat ∧
    t.sp.toNat = s.sp.toNat + 1 ∧ RegsSameBut spReg s t ∧ t.FL = s.FL ∧ MemorySame s t ∧ t.out = s.out ∧
    RunSame s t) ∧
  (∀ s : State, s.sp.toNat = 255 →
    exec .ret s = .next (s.faultedWith ⟨.addressError, s.pc, some 0x11, 256, .ret⟩)) ∧
  (∀ s : State, s.run = .running → s.pc ≤ 255 → s.mem.read s.pc = 0x11 → step s = exec .ret s)

/-- R115: LOAD_IMMEDIATE and PUSH of a register, then POP into a different one, neither of them `r7`, keep the value and
restore SP; a RETURN that finds SP and the byte at SP as the CALL left them resumes just after the CALL. -/
def Obligations.StackRoundTrips : Prop :=
  (∀ (s : State) (r r' : Fin 8) (v : Byte), s.mem.wf = true → s.sp.toNat ≠ 0 → r ≠ spReg → r' ≠ spReg → r ≠ r' →
    ∃ s1 s2 s3, exec (.loadImmediate (regByte r) v) s = .next s1 ∧ exec (.push (regByte r)) s1 = .next s2 ∧
      exec (.pop (regByte r')) s2 = .next s3 ∧ s3.readReg r' = v ∧ s3.sp = s.sp) ∧
  (∀ (s : State) (r : Fin 8), s.mem.wf = true → s.sp.toNat ≠ 0 → s.pc + 2 ≤ 255 → ∃ t,
    exec (.call (regByte r)) s = .next t ∧
    ∀ u : State, u.sp = t.sp → u.mem.read u.sp.toNat = t.mem.read t.sp.toNat →
      ∃ w, exec .ret u = .next w ∧ w.pc = s.pc + 2 ∧ w.sp = s.sp)

/-- R60 (the spec's decision D15): the byte that PUSH has just stored, or the return address that CALL has, is what every
opcode and operand fetch from its address uses. `PUSH r7` stores the decremented SP (the spec's decision D10). -/
def Obligations.FetchSeesThePushedByte : Prop :=
  ∀ (s : State) (r : Fin 8), s.mem.wf = true → s.run = .running → s.sp.toNat ≠ 0 →
    (∃ t, exec (.push (regByte r)) s = .next t ∧
      FetchesUse t t.sp.toNat (if r = spReg then t.sp else s.readReg r)) ∧
    (s.pc + 2 ≤ 255 → ∃ t, exec (.call (regByte r)) s = .next t ∧
      FetchesUse t t.sp.toNat (BitVec.ofNat 8 (s.pc + 2)))

/-! ## Compare and branches -/

/-- R117, R118 (keeping `FL[7:3]` is the spec's decision D5): COMPARE sets exactly one of the three flags, by the
unsigned order of the two registers, keeps `FL[7:3]`, and changes nothing else but `pc`. -/
def Obligations.CompareSetsExactlyOneFlag : Prop :=
  (∀ b1 b2, encode (.compare b1 b2) = [0xA7, b1, b2]) ∧
  (∀ (s : State) (ra rb : Fin 8), ∃ t, exec (.compare (regByte ra) (regByte rb)) s = .next t ∧
    (flagE t.FL = true ↔ s.readReg ra = s.readReg rb) ∧
    (flagG t.FL = true ↔ (s.readReg rb).toNat < (s.readReg ra).toNat) ∧
    (flagL t.FL = true ↔ (s.readReg ra).toNat < (s.readReg rb).toNat) ∧ OneFlagSet t.FL ∧
    flagsUnused t.FL = flagsUnused s.FL ∧ RegsSame s t ∧ t.pc = s.pc + 3 ∧ MemorySame s t ∧ t.out = s.out ∧
    RunSame s t) ∧
  OperandFetchFault 0xA7 254 ∧ OperandFetchFault 0xA7 255 ∧
  (∀ b1 b2, 7 < b1.toNat → RegisterIndexFault 0xA7 (.compare b1 b2) b1) ∧
  (∀ ra b2, 7 < b2.toNat → RegisterIndexFault 0xA7 (.compare (regByte ra) b2) b2)

/-- R119. -/
def Obligations.JumpGoesToTheRegister : Prop :=
  BranchRule .jump 0x54 (fun _ => true)

/-- R120, R121 (the register check of a branch not taken is the spec's decision D6): both conditional jumps, which take
opposite ways in every state. -/
def Obligations.ConditionalJumpsTestOnlyEqual : Prop :=
  BranchRule .jumpIfEqual 0x55 (fun s => flagE s.FL) ∧ BranchRule .jumpIfNotEqual 0x56 (fun s => !flagE s.FL)

/-! ## Memory -/

/-- R47, R48: a read or write in 0..255 succeeds and the cell then reads as written; outside it is AddressError. A
write of a canonical memory leaves it canonical and changes nothing else. -/
def Obligations.MemoryPortRejectsOutsideAddresses : Prop :=
  ∀ (s : State) (a : Int) (v : Byte) (ctx : FaultContext),
    (0 ≤ a → a ≤ 255 → s.memRead a ctx = .ok (s.mem.read a.toNat) ∧
      ∃ t, s.memWrite a v ctx = .ok t ∧ (s.mem.wf = true → t.memRead a ctx = .ok v ∧ t.mem.wf = true) ∧
        MemorySameBut a.toNat s t ∧ RegsSame s t ∧ t.pc = s.pc ∧ t.FL = s.FL ∧ t.out = s.out ∧ RunSame s t) ∧
    (a < 0 ∨ 255 < a → s.memRead a ctx = .error ⟨.addressError, a, ctx⟩ ∧
      s.memWrite a v ctx = .error ⟨.addressError, a, ctx⟩)

/-- R62 and R49: a step that changes a byte of memory is a PUSH or CALL, and the byte is the one below SP. -/
def Obligations.OnlyPushAndCallWriteMemory : Prop :=
  ∀ (s t : State) (a : Nat), step s = .next t → t.mem.read a ≠ s.mem.read a →
    a + 1 = s.sp.toNat ∧ ∃ b, s.fetch = .ok (.push b) ∨ s.fetch = .ok (.call b)

/-! ## Registers, flags, output: what may change them and who reads them -/

/-- R23's table, as a rule of the whole machine: a general register that an instruction changes is one R23 lists. -/
def Obligations.RegistersChangeOnlyAsListed : Prop :=
  ∀ (i : Instr) (s t : State) (r : Fin 8), exec i s = .next t → t.readReg r ≠ s.readReg r → i.mayWrite r

/-- R30: only COMPARE writes `FL`, and only bits 2..0; JUMP_IF_EQUAL and JUMP_IF_NOT_EQUAL read
bit 0 only and every other instruction reads none of it: states that differ only in the bits not read run alike but for
`FL`. -/
def Obligations.OnlyCompareWritesFlagsAndOnlyEqualIsRead : Prop :=
  (∀ (i : Instr) (s t : State), exec i s = .next t →
    flagsUnused t.FL = flagsUnused s.FL ∧ (t.FL ≠ s.FL → ∃ b1 b2, i = .compare b1 b2)) ∧
  (∀ (i : Instr) (s : State) (fl : Byte), flagE fl = flagE s.FL → ∃ t t',
    exec i s = .next t ∧ exec i { s with FL := fl } = .next t' ∧ t' = { t with FL := t'.FL }) ∧
  (∀ (i : Instr) (s : State) (fl : Byte), (∀ b, i ≠ .jumpIfEqual b) → (∀ b, i ≠ .jumpIfNotEqual b) → ∃ t t',
    exec i s = .next t ∧ exec i { s with FL := fl } = .next t' ∧ t' = { t with FL := t'.FL })

/-- R34: a step changes the output trace only by a PRINT_REGISTER appending its register's byte; the trace is empty at
reset; no instruction reads it. -/
def Obligations.OutputTraceOnlyGrowsByPrint : Prop :=
  (∀ initRegs initFl, (State.resetWith initRegs initFl).out = []) ∧
  (∀ s t : State, step s = .next t → t.out = s.out ∨
    ∃ r : Fin 8, s.fetch = .ok (.printRegister (regByte r)) ∧ t.out = s.out ++ [s.readReg r]) ∧
  (∀ (s : State) (r : Fin 8), ∃ t, exec (.printRegister (regByte r)) s = .next t ∧ t.out = s.out ++ [s.readReg r]) ∧
  (∀ (i : Instr) (s : State) (o : List Byte), ∃ t t',
    exec i s = .next t ∧ exec i { s with out := o } = .next t' ∧ t' = { t with out := t'.out })

/-- R43, which the spec marks as derived, over runs of any length from any state: `FL[7:3]` never changes; a run that
begins with `FL` in 0, 1, 2, 4 stays there; once exactly one flag is set, exactly one stays set, and COMPARE of two
registers sets exactly one. -/
def Obligations.FlagsStayWellShapedOverRuns : Prop :=
  (∀ (n : Nat) (s t : State), Host.Core.run Sys2Proof.core n s = .next t →
    flagsUnused t.FL = flagsUnused s.FL ∧
    (s.FL = 0x00 ∨ s.FL = 0x01 ∨ s.FL = 0x02 ∨ s.FL = 0x04 → t.FL = 0x00 ∨ t.FL = 0x01 ∨ t.FL = 0x02 ∨ t.FL = 0x04) ∧
    (OneFlagSet s.FL → OneFlagSet t.FL)) ∧
  (∀ (s t : State) (ra rb : Fin 8), exec (.compare (regByte ra) (regByte rb)) s = .next t → OneFlagSet t.FL)

/-! ## Faults and runs -/

/-- R69 (the spec's decision D6), for all instructions at once: the first register operand above 7 is the fault, whatever
the state, and nothing else changes. -/
def Obligations.RegisterOperandsAreCheckedInOrder : Prop :=
  ∀ (i : Instr) (s : State) (b : Byte), i.registerOperands.find? (fun b => decide (7 < b.toNat)) = some b →
    exec i s = .next (s.faultedWith ⟨.registerIndexError, s.pc, some i.opcode, b.toNat, .decode⟩)

/-- R129, which the spec marks as derived: an instruction that takes the run to Faulted does so in one of the contexts
the table gives it. -/
def Obligations.InstructionsFaultOnlyAsListed : Prop :=
  ∀ (i : Instr) (s t : State), s.run = .running → exec i s = .next t → t.run = .faulted →
    ∃ k, t = s.faultedWith k ∧ k.pc = s.pc ∧ k.opcode = some i.opcode ∧ k.ctx ∈ i.faultContexts

/-- R128, R130 (the spec's decision D7): a step that ends Faulted changes nothing but `run` and the fault record, which
names the address at which the step began. -/
def Obligations.FaultsArePrecise : Prop :=
  ∀ s t : State, step s = .next t → t.run = .faulted →
    ∃ k, t.fault = some k ∧ k.pc = s.pc ∧ t.pc = s.pc ∧ t.x = s.x ∧ t.mem = s.mem ∧ t.FL = s.FL ∧ t.out = s.out

/-- R127's table (the spec's decision D6), for every fault a step can take: kind, value and opcode follow the context. -/
def Obligations.FaultRecordsFollowTheTable : Prop :=
  ∀ (s t : State) (k : FaultRecord), s.pc ≤ 256 → step s = .next t → t.run = .faulted → t.fault = some k →
    k.followsTable

/-- R31 (its RegisterIndexError is the spec's decision D6): a step begins in Running and ends in Running, or in Halted
by a HALT, or in Faulted; the fault record changes only on the way to Faulted. -/
def Obligations.RunStateTransitions : Prop :=
  ∀ s t : State, step s = .next t → s.run = .running ∧
    ((t.run = .running ∧ t.fault = s.fault) ∨
      (t.run = .halted ∧ t.fault = s.fault ∧ s.fetch = .ok .halt) ∨
      (t.run = .faulted ∧ t.fault.isSome = true))

/-- R95 (marked derived), R90, R153: a run that the harness sees end is Halted on a HALT at `pc`, or Faulted with a record
that names `pc`. -/
def Obligations.RunsEndHaltedOnHaltOrFaulted : Prop :=
  ∀ (fuel : Nat) (s t : State), s.run = .running → s.fault = none → runWithFuel fuel s = .ended t →
    t.haltedNormally ∨ (t.run = .faulted ∧ ∃ k, t.fault = some k ∧ k.pc = t.pc)

/-- R163 (the spec's decision D14): out of fuel leaves the run Running, in the state that many steps give; a run that
ended is not changed by more fuel. -/
def Obligations.FuelOnlyBoundsTheRun : Prop :=
  (∀ (fuel : Nat) (s t : State), runWithFuel fuel s = .outOfFuel t →
    t.run = .running ∧ Host.Core.run Sys2Proof.core fuel s = .next t) ∧
  (∀ (fuel more : Nat) (s t : State), runWithFuel fuel s = .ended t → runWithFuel (fuel + more) s = .ended t)

/-! ## The invariant, reset and the host -/

/-- Every step keeps the invariant: `pc` in 0..256 (R25), memory canonical, a fault record exactly in Faulted (R32), and
that record at `pc` and as R127's table says. -/
def Obligations.StepKeepsTheInvariant : Prop :=
  ∀ s t : State, s.Inv → step s = .next t → t.Inv

/-- The invariant holds after reset, whatever the two open reset parameters are. -/
def Obligations.ResetMeetsTheInvariant : Prop :=
  ∀ initRegs initFl, (State.resetWith initRegs initFl).Inv

/-- Loading and starting keep the invariant. -/
def Obligations.LoadAndStartKeepTheInvariant : Prop :=
  (∀ (s t : State) (image : List Byte), s.Inv → s.load image = some t → t.Inv) ∧
  (∀ s t : State, s.Inv → s.start = some t → t.Inv)

/-- R42 with an image loaded (R150): the reset values the spec gives, for every value of the parameters it leaves open
(`initRegs` and `initFl`, D3 and D4). -/
def Obligations.ResetWithAnImageLoaded : Prop :=
  ∀ (initRegs : Fin 7 → Byte) (initFl : Byte) (image : List Byte), image.length ≤ 256 →
    ∃ s, (State.resetWith initRegs initFl).load image = some s ∧
      (∀ k, k < image.length → s.mem.read k = image.getD k 0) ∧ (∀ k, image.length ≤ k → s.mem.read k = 0) ∧
      s.readReg 7 = 0xF4 ∧ s.sp = 0xF4 ∧ (∀ k : Fin 7, s.readReg k.castSucc = initRegs k) ∧ s.pc = 0 ∧
      s.FL = initFl ∧ s.run = .ready ∧ s.fault = none ∧ s.out = []

/-- R38: `start` only in Ready, and it changes only `run`; `step` answers only in Running, with one step; `status` gives
the state and changes nothing. The clause that `load` is not answered outside Ready is the model's (DEDUCED from R152,
log entry 19). -/
def Obligations.HostRequestsAreGuarded : Prop :=
  ∀ s : State,
    (s.run = .ready → s.request .start = some { s with run := .running }) ∧
    (s.run ≠ .ready → s.request .start = none ∧ ∀ image, s.request (.load image) = none) ∧
    (s.run = .running → ∃ t, s.request .step = some t ∧ step s = .next t) ∧
    (s.run ≠ .running → s.request .step = none) ∧
    s.request .status = some s

/-- R160, R161 (the spec's decision D20): a program file. A line of 8 binary digits, whatever follows them, is its byte;
the k-th such line is the k-th byte; above 256 such lines the file is refused; one bad line refuses the file. That a
comment line is skipped whatever its length, also one shorter than 8 characters, which R161 could refuse, is the model's
choice (DESIGN CHOICE, log entry 17). -/
def Obligations.LoaderReadsOneByteALine : Prop :=
  (∀ lines : List (Byte × List Char), lines.length ≤ 256 →
    loadProgram (lines.map fun p => byteLine p.1 ++ p.2) = some (lines.map fun p => p.1)) ∧
  (∀ lines : List (Byte × List Char), 256 < lines.length →
    loadProgram (lines.map fun p => byteLine p.1 ++ p.2) = none) ∧
  (∀ (before after : List (List Char)) (comment : List Char),
    loadProgram (before ++ ('#' :: comment) :: after) = loadProgram (before ++ after)) ∧
  (∀ (before after : List (List Char)) (bad : List Char), bad.head? ≠ some '#' →
    (bad.length < 8 ∨ ∃ c ∈ bad.take 8, c ≠ '0' ∧ c ≠ '1') → loadProgram (before ++ bad :: after) = none)

/-- R162 (the spec's decision D13): the rendered line is the byte's decimal value: decimal digits and nothing else, no
leading zero, and the one digit 0 for the byte 0. That no line end is among the characters is the model's choice (DESIGN
CHOICE, log entry 18). -/
def Obligations.RenderedLineIsTheDecimalValue : Prop :=
  (∀ v : Byte, (∀ c ∈ renderByte v, '0' ≤ c ∧ c ≤ '9') ∧
    (renderByte v).foldl (fun n c => 10 * n + (c.toNat - '0'.toNat)) 0 = v.toNat ∧
    (v ≠ 0 → (renderByte v).head? ≠ some '0')) ∧
  renderByte 0 = ['0']
end

