-- ==== Sys2Proof/Laws/Decode.lean ====
section
/-! SUPPORT. What the opcode table and its lookup say. -/

namespace Sys2Proof

/-- A row that lookup finds is a row of the table, under the byte looked up. -/
theorem lookup_some {op : Byte} {row : OpcodeRow} (h : lookup op = some row) : row ∈ opcodeTable ∧ row.opcode = op := by
  refine ⟨List.mem_of_find?_eq_some h, ?_⟩
  simpa using List.find?_some h

/-- The thirteen rows, one by one: a fact about a row that lookup finds is a fact about each. -/
theorem lookup_cases {P : Byte → OpcodeRow → Prop} (hP : ∀ row ∈ opcodeTable, P row.opcode row) {op : Byte}
    {row : OpcodeRow} (h : lookup op = some row) : P op row := by
  obtain ⟨hm, rfl⟩ := lookup_some h
  exact hP row hm

/-- The instruction a row builds has the row's opcode byte, and as operands the bytes the row declares. -/
theorem build_of_lookup {op : Byte} {row : OpcodeRow} (h : lookup op = some row) (b1 b2 : Byte) :
    (row.build b1 b2).opcode = op ∧ (row.build b1 b2).operandBytes = [b1, b2].take row.operands ∧
      (row.build b1 b2).pcSetting = row.pcSetting ∧ row.operands ≤ 2 := by
  revert h
  refine lookup_cases (P := fun op row => (row.build b1 b2).opcode = op ∧
    (row.build b1 b2).operandBytes = [b1, b2].take row.operands ∧
      (row.build b1 b2).pcSetting = row.pcSetting ∧ row.operands ≤ 2) ?_
  intro row hm
  simp only [opcodeTable, List.mem_cons, List.not_mem_nil, or_false] at hm
  rcases hm with h | h | h | h | h | h | h | h | h | h | h | h | h <;> subst h <;> exact ⟨rfl, rfl, rfl, by decide⟩

/-- A row ignores the operand bytes it does not declare. -/
theorem build_ignores {op : Byte} {row : OpcodeRow} (h : lookup op = some row) (b1 b2 c1 c2 : Byte)
    (h1 : 1 ≤ row.operands → b1 = c1) (h2 : row.operands = 2 → b2 = c2) : row.build b1 b2 = row.build c1 c2 := by
  obtain ⟨hm, -⟩ := lookup_some h
  simp only [opcodeTable, List.mem_cons, List.not_mem_nil, or_false] at hm
  rcases hm with h | h | h | h | h | h | h | h | h | h | h | h | h <;> subst h <;> simp_all

/-- Every instruction's opcode byte is in the table, under the row that builds it. -/
theorem lookup_opcode (i : Instr) : ∃ row, lookup i.opcode = some row ∧ row.operands = i.operandBytes.length ∧
    row.build (i.operandBytes.getD 0 0) (i.operandBytes.getD 1 0) = i := by
  cases i <;> exact ⟨_, rfl, rfl, rfl⟩

end Sys2Proof
end

