-- ==== Sys2Proof/Laws/Memory.lean ====
section
/-! SUPPORT. Memory: a read after a write, and the canonical form, which every memory operation keeps. -/

namespace Sys2Proof.Machine

theorem Memory.wfFrom_cons {lo a : Nat} {v : Byte} {m : Memory} :
    Memory.wfFrom lo ((a, v) :: m) = true ↔
      lo ≤ a ∧ a < Config.memSize ∧ v ≠ Config.memFill ∧ Memory.wfFrom (a + 1) m = true := by
  simp [Memory.wfFrom, and_assoc]

theorem Memory.wfFrom_weaken {lo lo' : Nat} {m : Memory} (h : Memory.wfFrom lo m = true) (hle : lo' ≤ lo) :
    Memory.wfFrom lo' m = true := by
  cases m with
  | nil => rfl
  | cons c m =>
    obtain ⟨h1, h2⟩ := Memory.wfFrom_cons.1 h
    exact Memory.wfFrom_cons.2 ⟨hle.trans h1, h2⟩

/-- Below the first address a canonical memory may list, every cell reads as the fill. -/
theorem Memory.read_below {lo a : Nat} {m : Memory} (h : Memory.wfFrom lo m = true) (ha : a < lo) :
    m.read a = Config.memFill := by
  induction m generalizing lo with
  | nil => rfl
  | cons c m ih =>
    obtain ⟨h1, -, -, h4⟩ := Memory.wfFrom_cons.1 h
    have hne : a ≠ c.1 := by omega
    simp only [Memory.read, if_neg hne]
    exact ih h4 (by omega)

/-- From 256 on, a canonical memory reads as the fill. -/
theorem Memory.read_beyond {lo a : Nat} {m : Memory} (h : Memory.wfFrom lo m = true) (ha : Config.memSize ≤ a) :
    m.read a = Config.memFill := by
  induction m generalizing lo with
  | nil => rfl
  | cons c m ih =>
    obtain ⟨-, h2, -, h4⟩ := Memory.wfFrom_cons.1 h
    have hne : a ≠ c.1 := by omega
    simp only [Memory.read, if_neg hne]
    exact ih h4

theorem Memory.wfFrom_write {lo a : Nat} {v : Byte} {m : Memory} (h : Memory.wfFrom lo m = true) (hlo : lo ≤ a)
    (ha : a < Config.memSize) : Memory.wfFrom lo (m.write a v) = true := by
  induction m generalizing lo with
  | nil =>
    by_cases hv : v = Config.memFill
    · simp [Memory.write, hv, Memory.wfFrom]
    · simpa [Memory.write, hv, Memory.wfFrom] using ⟨hlo, ha⟩
  | cons c m ih =>
    obtain ⟨b, w⟩ := c
    obtain ⟨h1, h2, h3, h4⟩ := Memory.wfFrom_cons.1 h
    simp only [Memory.write]
    split
    · split
      · exact h
      · exact Memory.wfFrom_cons.2 ⟨hlo, ha, ‹_›, Memory.wfFrom_cons.2 ⟨by omega, h2, h3, h4⟩⟩
    · split
      · subst a
        split
        · exact Memory.wfFrom_weaken h4 (by omega)
        · exact Memory.wfFrom_cons.2 ⟨hlo, ha, ‹_›, h4⟩
      · exact Memory.wfFrom_cons.2 ⟨h1, h2, h3, ih h4 (by omega)⟩

/-- A store inside the memory keeps the canonical form. -/
theorem Memory.wf_write {a : Nat} {v : Byte} {m : Memory} (h : m.wf = true) (ha : a < Config.memSize) :
    (m.write a v).wf = true := Memory.wfFrom_write h (Nat.zero_le a) ha

/-- Storing consecutive bytes keeps the canonical form. -/
theorem Memory.wf_writeBytes {a : Nat} {vs : List Byte} {m : Memory} (h : m.wf = true) :
    (m.writeBytes a vs).wf = true := by
  induction vs generalizing m a with
  | nil => exact h
  | cons v vs ih =>
    simp only [Memory.writeBytes]
    split
    · exact ih (Memory.wf_write h ‹_›)
    · exact ih h

theorem Memory.read_write_ne {a b : Nat} {v : Byte} {m : Memory} (hne : b ≠ a) : (m.write a v).read b = m.read b := by
  induction m with
  | nil => by_cases hv : v = Config.memFill <;> simp [Memory.write, hv, Memory.read, hne]
  | cons c m ih =>
    obtain ⟨b', w⟩ := c
    simp only [Memory.write]
    split
    · split <;> simp [Memory.read, hne]
    · split
      · subst a
        split <;> simp [Memory.read, hne]
      · simp [Memory.read, ih]

theorem Memory.wfFrom_read_write_self {lo a : Nat} {v : Byte} {m : Memory} (h : Memory.wfFrom lo m = true) :
    (m.write a v).read a = v := by
  induction m generalizing lo with
  | nil => by_cases hv : v = Config.memFill <;> simp [Memory.write, hv, Memory.read]
  | cons c m ih =>
    obtain ⟨b', w⟩ := c
    obtain ⟨-, -, -, h4⟩ := Memory.wfFrom_cons.1 h
    simp only [Memory.write]
    split
    · rename_i hlt
      split
      · have hne : a ≠ b' := by omega
        subst v
        simp only [Memory.read, if_neg hne]
        exact Memory.read_below h4 (by omega)
      · simp [Memory.read]
    · split
      · subst a
        split
        · subst v
          exact Memory.read_below h4 (by omega)
        · simp [Memory.read]
      · rename_i hne
        simp only [Memory.read, if_neg hne]
        exact ih h4

/-- A cell reads as the last byte written to it; a write leaves every other cell alone. -/
theorem Memory.read_write {a : Nat} (b : Nat) {v : Byte} {m : Memory} (h : m.wf = true) :
    (m.write a v).read b = if b = a then v else m.read b := by
  split
  · subst b
    exact Memory.wfFrom_read_write_self h
  · exact Memory.read_write_ne ‹_›

/-- What a cell reads after consecutive bytes are stored. -/
theorem Memory.read_writeBytes {a : Nat} {vs : List Byte} {m : Memory} (h : m.wf = true) (b : Nat) :
    (m.writeBytes a vs).read b =
      if a ≤ b ∧ b < a + vs.length ∧ b < Config.memSize then vs.getD (b - a) Config.memFill else m.read b := by
  induction vs generalizing m a with
  | nil =>
    have : ¬ (a ≤ b ∧ b < a + ([] : List Byte).length ∧ b < Config.memSize) := by simp; omega
    rw [if_neg this, Memory.writeBytes]
  | cons v vs ih =>
    simp only [Memory.writeBytes, List.length_cons]
    have hm : (if a < Config.memSize then m.write a v else m).wf = true := by
      split
      · exact Memory.wf_write h ‹_›
      · exact h
    rw [ih hm]
    by_cases hin : a + 1 ≤ b ∧ b < a + 1 + vs.length ∧ b < Config.memSize
    · have hin' : a ≤ b ∧ b < a + (vs.length + 1) ∧ b < Config.memSize := by omega
      have hsub : b - a = (b - (a + 1)) + 1 := by omega
      rw [if_pos hin, if_pos hin', hsub, List.getD_cons_succ]
    · rw [if_neg hin]
      by_cases hba : b = a
      · subst hba
        by_cases hlt : b < Config.memSize
        · have hin' : b ≤ b ∧ b < b + (vs.length + 1) ∧ b < Config.memSize := by omega
          rw [if_pos hlt, if_pos hin', Memory.read_write b h]
          simp
        · have hin' : ¬ (b ≤ b ∧ b < b + (vs.length + 1) ∧ b < Config.memSize) := by omega
          rw [if_neg hlt, if_neg hin']
      · have hin' : ¬ (a ≤ b ∧ b < a + (vs.length + 1) ∧ b < Config.memSize) := by omega
        rw [if_neg hin']
        split
        · exact Memory.read_write_ne hba
        · rfl

/-- Two canonical memories that read alike at every address are the same list. -/
theorem Memory.wfFrom_ext {lo : Nat} {m m' : Memory} (h : Memory.wfFrom lo m = true) (h' : Memory.wfFrom lo m' = true)
    (he : ∀ a, m.read a = m'.read a) : m = m' := by
  induction m generalizing lo m' with
  | nil =>
    cases m' with
    | nil => rfl
    | cons c m' =>
      obtain ⟨-, -, h3, -⟩ := Memory.wfFrom_cons.1 h'
      have := he c.1
      simp [Memory.read] at this
      exact absurd this.symm h3
  | cons c m ih =>
    obtain ⟨a, v⟩ := c
    obtain ⟨h1, h2, h3, h4⟩ := Memory.wfFrom_cons.1 h
    cases m' with
    | nil =>
      have := he a
      simp [Memory.read] at this
      exact absurd this h3
    | cons c' m' =>
      obtain ⟨a', v'⟩ := c'
      obtain ⟨h1', h2', h3', h4'⟩ := Memory.wfFrom_cons.1 h'
      have haa : a = a' := by
        rcases Nat.lt_trichotomy a a' with hlt | heq | hgt
        · have e := he a
          simp only [Memory.read, if_neg (Nat.ne_of_lt hlt)] at e
          rw [Memory.read_below h4' (by omega)] at e
          simp at e
          exact absurd e h3
        · exact heq
        · have e := he a'
          simp only [Memory.read, if_neg (Nat.ne_of_lt hgt)] at e
          rw [Memory.read_below h4 (by omega)] at e
          simp at e
          exact absurd e.symm h3'
      subst haa
      have hvv : v = v' := by simpa [Memory.read] using he a
      subst hvv
      refine congrArg _ (ih h4 h4' fun b => ?_)
      by_cases hb : b = a
      · subst hb
        rw [Memory.read_below h4 (by omega), Memory.read_below h4' (by omega)]
      · simpa [Memory.read, hb] using he b

/-- The form is canonical: equal memories are equal data. -/
theorem Memory.wf_ext {m m' : Memory} (h : m.wf = true) (h' : m'.wf = true) (he : ∀ a, m.read a = m'.read a) : m = m' :=
  Memory.wfFrom_ext h h' he

end Sys2Proof.Machine
end

