-- ==== Sys2Proof/Laws/State.lean ====
section
/-! SUPPORT. One lemma per field per update of State, each true by rfl, so that no later proof unfolds a record
update. -/

namespace Sys2Proof.Machine

variable (s : State)

/-! ### setPc -/

@[simp] theorem State.setPc_mem (a : Nat) : (s.setPc a).mem = s.mem := rfl
@[simp] theorem State.setPc_x (a : Nat) : (s.setPc a).x = s.x := rfl
@[simp] theorem State.setPc_pc (a : Nat) : (s.setPc a).pc = a := rfl
@[simp] theorem State.setPc_FL (a : Nat) : (s.setPc a).FL = s.FL := rfl
@[simp] theorem State.setPc_run (a : Nat) : (s.setPc a).run = s.run := rfl
@[simp] theorem State.setPc_fault (a : Nat) : (s.setPc a).fault = s.fault := rfl
@[simp] theorem State.setPc_out (a : Nat) : (s.setPc a).out = s.out := rfl
@[simp] theorem State.setPc_readReg (a : Nat) (i : Fin 8) : (s.setPc a).readReg i = s.readReg i := rfl
@[simp] theorem State.setPc_sp (a : Nat) : (s.setPc a).sp = s.sp := rfl

/-! ### advance -/

@[simp] theorem State.advance_mem (n : Nat) : (s.advance n).mem = s.mem := rfl
@[simp] theorem State.advance_x (n : Nat) : (s.advance n).x = s.x := rfl
@[simp] theorem State.advance_pc (n : Nat) : (s.advance n).pc = s.pc + 1 + n := rfl
@[simp] theorem State.advance_FL (n : Nat) : (s.advance n).FL = s.FL := rfl
@[simp] theorem State.advance_run (n : Nat) : (s.advance n).run = s.run := rfl
@[simp] theorem State.advance_fault (n : Nat) : (s.advance n).fault = s.fault := rfl
@[simp] theorem State.advance_out (n : Nat) : (s.advance n).out = s.out := rfl
@[simp] theorem State.advance_readReg (n : Nat) (i : Fin 8) : (s.advance n).readReg i = s.readReg i := rfl
@[simp] theorem State.advance_sp (n : Nat) : (s.advance n).sp = s.sp := rfl

/-! ### setRun -/

@[simp] theorem State.setRun_mem (r : RunState) : (s.setRun r).mem = s.mem := rfl
@[simp] theorem State.setRun_x (r : RunState) : (s.setRun r).x = s.x := rfl
@[simp] theorem State.setRun_pc (r : RunState) : (s.setRun r).pc = s.pc := rfl
@[simp] theorem State.setRun_FL (r : RunState) : (s.setRun r).FL = s.FL := rfl
@[simp] theorem State.setRun_run (r : RunState) : (s.setRun r).run = r := rfl
@[simp] theorem State.setRun_fault (r : RunState) : (s.setRun r).fault = s.fault := rfl
@[simp] theorem State.setRun_out (r : RunState) : (s.setRun r).out = s.out := rfl
@[simp] theorem State.setRun_readReg (r : RunState) (i : Fin 8) : (s.setRun r).readReg i = s.readReg i := rfl
@[simp] theorem State.setRun_sp (r : RunState) : (s.setRun r).sp = s.sp := rfl

/-! ### writeReg -/

@[simp] theorem State.writeReg_mem (r : Fin 8) (v : Byte) : (s.writeReg r v).mem = s.mem := rfl
@[simp] theorem State.writeReg_x (r : Fin 8) (v : Byte) : (s.writeReg r v).x = s.x.set r.val v := rfl
@[simp] theorem State.writeReg_pc (r : Fin 8) (v : Byte) : (s.writeReg r v).pc = s.pc := rfl
@[simp] theorem State.writeReg_FL (r : Fin 8) (v : Byte) : (s.writeReg r v).FL = s.FL := rfl
@[simp] theorem State.writeReg_run (r : Fin 8) (v : Byte) : (s.writeReg r v).run = s.run := rfl
@[simp] theorem State.writeReg_fault (r : Fin 8) (v : Byte) : (s.writeReg r v).fault = s.fault := rfl
@[simp] theorem State.writeReg_out (r : Fin 8) (v : Byte) : (s.writeReg r v).out = s.out := rfl

/-! ### storeByte -/

@[simp] theorem State.storeByte_mem (a : Nat) (v : Byte) : (s.storeByte a v).mem = s.mem.write a v := rfl
@[simp] theorem State.storeByte_x (a : Nat) (v : Byte) : (s.storeByte a v).x = s.x := rfl
@[simp] theorem State.storeByte_pc (a : Nat) (v : Byte) : (s.storeByte a v).pc = s.pc := rfl
@[simp] theorem State.storeByte_FL (a : Nat) (v : Byte) : (s.storeByte a v).FL = s.FL := rfl
@[simp] theorem State.storeByte_run (a : Nat) (v : Byte) : (s.storeByte a v).run = s.run := rfl
@[simp] theorem State.storeByte_fault (a : Nat) (v : Byte) : (s.storeByte a v).fault = s.fault := rfl
@[simp] theorem State.storeByte_out (a : Nat) (v : Byte) : (s.storeByte a v).out = s.out := rfl
@[simp] theorem State.storeByte_readReg (a : Nat) (v : Byte) (i : Fin 8) : (s.storeByte a v).readReg i = s.readReg i := rfl
@[simp] theorem State.storeByte_sp (a : Nat) (v : Byte) : (s.storeByte a v).sp = s.sp := rfl

/-! ### emit -/

@[simp] theorem State.emit_mem (v : Byte) : (s.emit v).mem = s.mem := rfl
@[simp] theorem State.emit_x (v : Byte) : (s.emit v).x = s.x := rfl
@[simp] theorem State.emit_pc (v : Byte) : (s.emit v).pc = s.pc := rfl
@[simp] theorem State.emit_FL (v : Byte) : (s.emit v).FL = s.FL := rfl
@[simp] theorem State.emit_run (v : Byte) : (s.emit v).run = s.run := rfl
@[simp] theorem State.emit_fault (v : Byte) : (s.emit v).fault = s.fault := rfl
@[simp] theorem State.emit_out (v : Byte) : (s.emit v).out = s.out ++ [v] := rfl
@[simp] theorem State.emit_readReg (v : Byte) (i : Fin 8) : (s.emit v).readReg i = s.readReg i := rfl
@[simp] theorem State.emit_sp (v : Byte) : (s.emit v).sp = s.sp := rfl

/-! ### setFlags -/

@[simp] theorem State.setFlags_mem (bits : BitVec 3) : (s.setFlags bits).mem = s.mem := rfl
@[simp] theorem State.setFlags_x (bits : BitVec 3) : (s.setFlags bits).x = s.x := rfl
@[simp] theorem State.setFlags_pc (bits : BitVec 3) : (s.setFlags bits).pc = s.pc := rfl
@[simp] theorem State.setFlags_FL (bits : BitVec 3) : (s.setFlags bits).FL = (flagsUnused s.FL ++ bits : BitVec 8) := rfl
@[simp] theorem State.setFlags_run (bits : BitVec 3) : (s.setFlags bits).run = s.run := rfl
@[simp] theorem State.setFlags_fault (bits : BitVec 3) : (s.setFlags bits).fault = s.fault := rfl
@[simp] theorem State.setFlags_out (bits : BitVec 3) : (s.setFlags bits).out = s.out := rfl
@[simp] theorem State.setFlags_readReg (bits : BitVec 3) (i : Fin 8) : (s.setFlags bits).readReg i = s.readReg i := rfl
@[simp] theorem State.setFlags_sp (bits : BitVec 3) : (s.setFlags bits).sp = s.sp := rfl

/-! ### takeFault -/

@[simp] theorem State.takeFault_mem (op : Option Byte) (e : Raised) : (s.takeFault op e).mem = s.mem := rfl
@[simp] theorem State.takeFault_x (op : Option Byte) (e : Raised) : (s.takeFault op e).x = s.x := rfl
@[simp] theorem State.takeFault_pc (op : Option Byte) (e : Raised) : (s.takeFault op e).pc = s.pc := rfl
@[simp] theorem State.takeFault_FL (op : Option Byte) (e : Raised) : (s.takeFault op e).FL = s.FL := rfl
@[simp] theorem State.takeFault_run (op : Option Byte) (e : Raised) : (s.takeFault op e).run = .faulted := rfl
@[simp] theorem State.takeFault_fault (op : Option Byte) (e : Raised) : (s.takeFault op e).fault = some ⟨e.kind, s.pc, op, e.value, e.ctx⟩ := rfl
@[simp] theorem State.takeFault_out (op : Option Byte) (e : Raised) : (s.takeFault op e).out = s.out := rfl
@[simp] theorem State.takeFault_readReg (op : Option Byte) (e : Raised) (i : Fin 8) : (s.takeFault op e).readReg i = s.readReg i := rfl
@[simp] theorem State.takeFault_sp (op : Option Byte) (e : Raised) : (s.takeFault op e).sp = s.sp := rfl

/-! ### Registers -/

/-- A register reads as the last value written to it; a write leaves every other register alone. -/
@[simp] theorem State.readReg_writeReg (r i : Fin 8) (v : Byte) :
    (s.writeReg r v).readReg i = if i = r then v else s.readReg i := by
  by_cases h : i = r
  · simp [State.readReg, State.writeReg, h]
  · have : r.val ≠ i.val := fun e => h (Fin.ext e.symm)
    simp [State.readReg, State.writeReg, Vector.getElem_set_ne, this, h]

@[simp] theorem State.sp_writeReg_sp (v : Byte) : (s.writeReg spReg v).sp = v := by simp [State.sp]

theorem State.sp_writeReg (r : Fin 8) (v : Byte) : (s.writeReg r v).sp = if spReg = r then v else s.sp := by
  simp [State.sp]

/-! ### SP as a number, where it does not wrap -/

theorem toNat_sub_one {b : Byte} (h : b.toNat ≠ 0) : (b - 1).toNat = b.toNat - 1 := by
  have := b.isLt
  simp [BitVec.toNat_sub]
  omega

theorem toNat_add_one {b : Byte} (h : b.toNat < 255) : (b + 1).toNat = b.toNat + 1 := by
  simp [BitVec.toNat_add]
  omega

end Sys2Proof.Machine
end

