-- ==== Sys2Proof/Laws/Ops.lean ====
section
/-! SUPPORT. What each shared operation can do, said once. -/

namespace Sys2Proof.Machine

/-! ### Register operands -/

@[simp] theorem regByte_toNat (r : Fin 8) : (regByte r).toNat = r.val := by
  have := r.isLt
  simp [regByte]
  omega

@[simp] theorem regOperand_regByte (r : Fin 8) : regOperand (regByte r) = .ok r := by
  simp [regOperand]

theorem regOperand_above {b : Byte} (h : 7 < b.toNat) : regOperand b = .error (registerIndexError b) := by
  have : ¬ b.toNat < 8 := by omega
  simp [regOperand, this]

/-- A register operand names a register, by its byte, or raises RegisterIndexError. -/
theorem regOperand_cases (b : Byte) :
    (∃ r, b = regByte r ∧ regOperand b = .ok r) ∨ (7 < b.toNat ∧ regOperand b = .error (registerIndexError b)) := by
  by_cases h : b.toNat < 8
  · refine .inl ⟨⟨b.toNat, h⟩, ?_, by simp [regOperand, h]⟩
    simp [regByte]
  · exact .inr ⟨by omega, regOperand_above (by omega)⟩

@[simp] theorem regOperands_regByte (ra rb : Fin 8) : regOperands (regByte ra) (regByte rb) = .ok (ra, rb) := by
  simp [regOperands, bind, Except.bind, pure, Except.pure]

theorem regOperands_first {b1 b2 : Byte} (h : 7 < b1.toNat) : regOperands b1 b2 = .error (registerIndexError b1) := by
  simp [regOperands, regOperand_above h, bind, Except.bind]

theorem regOperands_second {ra : Fin 8} {b2 : Byte} (h : 7 < b2.toNat) :
    regOperands (regByte ra) b2 = .error (registerIndexError b2) := by
  simp [regOperands, regOperand_above h, bind, Except.bind]

/-- Two register operands name registers, or the first that does not is raised. -/
theorem regOperands_cases (b1 b2 : Byte) :
    (∃ ra rb, b1 = regByte ra ∧ b2 = regByte rb ∧ regOperands b1 b2 = .ok (ra, rb)) ∨
      (∃ b, 7 < b.toNat ∧ (b = b1 ∨ b = b2) ∧ regOperands b1 b2 = .error (registerIndexError b)) := by
  obtain ⟨ra, rfl, -⟩ | ⟨h1, -⟩ := regOperand_cases b1
  · obtain ⟨rb, rfl, -⟩ | ⟨h2, -⟩ := regOperand_cases b2
    · exact .inl ⟨ra, rb, rfl, rfl, regOperands_regByte ra rb⟩
    · exact .inr ⟨b2, h2, .inr rfl, regOperands_second h2⟩
  · exact .inr ⟨b1, h1, .inl rfl, regOperands_first h1⟩

/-! ### The memory port -/

theorem State.memRead_ok {s : State} {a : Nat} (ctx : FaultContext) (h : a ≤ 255) :
    s.memRead (a : Int) ctx = .ok (s.mem.read a) := by
  have : ¬ ((a : Int) < 0 ∨ (a : Int) > 255) := by omega
  rw [State.memRead, if_neg this, Int.toNat_natCast]

theorem State.memRead_above {s : State} {a : Int} (ctx : FaultContext) (h : 255 < a) :
    s.memRead a ctx = .error (addressError a ctx) := by
  rw [State.memRead, if_pos (.inr h)]

@[simp] theorem State.memRead_byte {s : State} (b : Byte) (ctx : FaultContext) :
    s.memRead (b.toNat : Int) ctx = .ok (s.mem.read b.toNat) := State.memRead_ok ctx (by omega)

/-- A read gives the byte of a cell in 0..255, or AddressError outside. -/
theorem State.memRead_cases (s : State) (a : Int) (ctx : FaultContext) :
    (0 ≤ a ∧ a ≤ 255 ∧ s.memRead a ctx = .ok (s.mem.read a.toNat)) ∨
      ((a < 0 ∨ 255 < a) ∧ s.memRead a ctx = .error (addressError a ctx)) := by
  by_cases h : a < 0 ∨ a > 255
  · exact .inr ⟨h, by rw [State.memRead, if_pos h]⟩
  · exact .inl ⟨by omega, by omega, by rw [State.memRead, if_neg h]⟩

@[simp] theorem State.memWrite_byte {s : State} (b v : Byte) (ctx : FaultContext) :
    s.memWrite (b.toNat : Int) v ctx = .ok (s.storeByte b.toNat v) := by
  have : ¬ ((b.toNat : Int) < 0 ∨ (b.toNat : Int) > 255) := by omega
  rw [State.memWrite, if_neg this, Int.toNat_natCast]

/-- A write stores one byte of a cell in 0..255, or is AddressError outside. -/
theorem State.memWrite_cases (s : State) (a : Int) (v : Byte) (ctx : FaultContext) :
    (0 ≤ a ∧ a ≤ 255 ∧ s.memWrite a v ctx = .ok (s.storeByte a.toNat v)) ∨
      ((a < 0 ∨ 255 < a) ∧ s.memWrite a v ctx = .error (addressError a ctx)) := by
  by_cases h : a < 0 ∨ a > 255
  · exact .inr ⟨h, by rw [State.memWrite, if_pos h]⟩
  · exact .inl ⟨by omega, by omega, by rw [State.memWrite, if_neg h]⟩

/-! ### The stack pointer -/

theorem State.decrementSp_zero {s : State} (ctx : FaultContext) (h : s.sp.toNat = 0) :
    s.decrementSp ctx = .error (addressError (-1) ctx) := by rw [State.decrementSp, if_pos h]

theorem State.decrementSp_ok {s : State} (ctx : FaultContext) (h : s.sp.toNat ≠ 0) :
    s.decrementSp ctx = .ok (s.writeReg spReg (s.sp - 1)) := by rw [State.decrementSp, if_neg h]

theorem State.incrementSp_top {s : State} (ctx : FaultContext) (h : s.sp.toNat = 255) :
    s.incrementSp ctx = .error (addressError 256 ctx) := by
  rw [State.incrementSp, if_pos (by omega), h]
  rfl

theorem State.incrementSp_ok {s : State} (ctx : FaultContext) (h : s.sp.toNat < 255) :
    s.incrementSp ctx = .ok (s.writeReg spReg (s.sp + 1)) := by rw [State.incrementSp, if_neg (by omega)]

theorem returnAddress_ok {s : State} (h : s.pc + 2 ≤ 255) : returnAddress s = .ok (BitVec.ofNat 8 (s.pc + 2)) := by
  rw [returnAddress, if_neg (by omega)]

theorem returnAddress_above {s : State} (h : 255 < s.pc + 2) :
    returnAddress s = .error (addressError ((s.pc : Int) + 2) .callReturnAddress) := by
  rw [returnAddress, if_pos h]

/-! ### The ALU -/

@[simp] theorem alu_add (a b : Byte) : alu 0xA0 a b = .ok (BitVec.ofNat 8 ((a.toNat + b.toNat) % 256)) := rfl

@[simp] theorem alu_multiply (a b : Byte) : alu 0xA2 a b = .ok (BitVec.ofNat 8 ((a.toNat * b.toNat) % 256)) := rfl

theorem alu_unsupported {op : Byte} (a b : Byte) (h1 : op ≠ 0xA0) (h2 : op ≠ 0xA2) :
    alu op a b = .error (unsupportedOperationError op) := by simp only [alu, if_neg h1, if_neg h2]

/-! ### Flags -/

theorem flagsUnused_append (u : BitVec 5) (bits : BitVec 3) : flagsUnused (u ++ bits) = u := by
  revert u bits
  decide

theorem flagE_append (u : BitVec 5) (bits : BitVec 3) : flagE (u ++ bits) = bits.getLsbD 0 := by
  revert u bits
  decide

theorem flagG_append (u : BitVec 5) (bits : BitVec 3) : flagG (u ++ bits) = bits.getLsbD 1 := by
  revert u bits
  decide

theorem flagL_append (u : BitVec 5) (bits : BitVec 3) : flagL (u ++ bits) = bits.getLsbD 2 := by
  revert u bits
  decide

/-- COMPARE's three outcomes, one bit each. -/
theorem compareFlags_cases (p q : Byte) :
    (p = q ∧ compareFlags p q = 0b001) ∨ (q.toNat < p.toNat ∧ p ≠ q ∧ compareFlags p q = 0b010) ∨
      (p.toNat < q.toNat ∧ p ≠ q ∧ compareFlags p q = 0b100) := by
  by_cases h : p = q
  · exact .inl ⟨h, by simp [compareFlags, h]⟩
  · by_cases h2 : p.toNat > q.toNat
    · exact .inr (.inl ⟨h2, h, by simp [compareFlags, h, h2]⟩)
    · have : p.toNat ≠ q.toNat := fun e => h (BitVec.eq_of_toNat_eq e)
      exact .inr (.inr ⟨by omega, h, by simp [compareFlags, h, h2]⟩)

/-! ### Ending an instruction -/

@[simp] theorem complete_ok (op : Byte) (s t : State) : complete op s (.ok t) = .next t := rfl

@[simp] theorem complete_error (op : Byte) (s : State) (e : Raised) :
    complete op s (.error e) = .next (s.takeFault (some op) e) := rfl

/-- An instruction always answers a next state: the one its statements leave, or the fault's. -/
theorem complete_cases {op : Byte} {s t : State} {r : Except Raised State} (h : complete op s r = .next t) :
    r = .ok t ∨ ∃ e, r = .error e ∧ t = s.takeFault (some op) e := by
  cases r with
  | ok u => simpa using h
  | error e => exact .inr ⟨e, rfl, by simpa using h.symm⟩

end Sys2Proof.Machine
end

