-- ==== Sys2Proof/Laws/Exec.lean ====
section
/-! SUPPORT. What `exec` can do, said once: how each instruction completes, how it faults, and the inversion lemma that
gives one or the other. Later proofs case on these and never unfold a meaning. -/

namespace Sys2Proof.Machine

theorem popBound_ok {r : Fin 8} {s : State} (h : ¬ (popR7AtTop r s ∧ Config.popR7AtTopFaults = true)) :
    popBound r s = .ok () := if_neg h

theorem popBound_error {r : Fin 8} {s : State} (h : popR7AtTop r s ∧ Config.popR7AtTopFaults = true) :
    popBound r s = .error (addressError 256 .stackPop) := if_pos h

theorem not_popR7AtTop_of_ne {r : Fin 8} {s : State} (h : r ≠ spReg) : ¬ popR7AtTop r s := fun ht => h ht.1

theorem not_popR7AtTop_of_lt {r : Fin 8} {s : State} (h : s.sp.toNat < 255) : ¬ popR7AtTop r s := fun ht => by
  have := ht.2; omega

/-- `Completes i s t`: instruction `i`, its register operands legal, goes from `s` to `t` without a fault. -/
inductive Completes : Instr → State → State → Prop
  | halt (s) : Completes .halt s (s.setRun .halted)
  | loadImmediate (s) (r : Fin 8) (v : Byte) : Completes (.loadImmediate (regByte r) v) s ((s.writeReg r v).advance 2)
  | printRegister (s) (r : Fin 8) : Completes (.printRegister (regByte r)) s ((s.emit (s.readReg r)).advance 1)
  | multiply (s) (ra rb : Fin 8) : Completes (.multiply (regByte ra) (regByte rb)) s
      ((s.writeReg ra (BitVec.ofNat 8 (((s.readReg ra).toNat * (s.readReg rb).toNat) % 256))).advance 2)
  | add (s) (ra rb : Fin 8) : Completes (.add (regByte ra) (regByte rb)) s
      ((s.writeReg ra (BitVec.ofNat 8 (((s.readReg ra).toNat + (s.readReg rb).toNat) % 256))).advance 2)
  | push (s) (r : Fin 8) (h : s.sp.toNat ≠ 0) : Completes (.push (regByte r)) s
      (((s.writeReg spReg (s.sp - 1)).storeByte (s.sp - 1).toNat ((s.writeReg spReg (s.sp - 1)).readReg r)).advance 1)
  | pop (s) (r : Fin 8) (hb : ¬ (popR7AtTop r s ∧ Config.popR7AtTopFaults = true))
      (h : (s.writeReg r (s.mem.read s.sp.toNat)).sp.toNat < 255) : Completes (.pop (regByte r)) s
      (((s.writeReg r (s.mem.read s.sp.toNat)).writeReg spReg
        ((s.writeReg r (s.mem.read s.sp.toNat)).sp + 1)).advance 1)
  | call (s) (r : Fin 8) (h : s.sp.toNat ≠ 0) (ha : s.pc + 2 ≤ 255) : Completes (.call (regByte r)) s
      (((s.writeReg spReg (s.sp - 1)).storeByte (s.sp - 1).toNat (BitVec.ofNat 8 (s.pc + 2))).setPc
        ((s.writeReg spReg (s.sp - 1)).readReg r).toNat)
  | ret (s) (h : s.sp.toNat < 255) : Completes .ret s
      ((s.writeReg spReg (s.sp + 1)).setPc (s.mem.read s.sp.toNat).toNat)
  | compare (s) (ra rb : Fin 8) : Completes (.compare (regByte ra) (regByte rb)) s
      ((s.setFlags (compareFlags (s.readReg ra) (s.readReg rb))).advance 2)
  | jump (s) (r : Fin 8) : Completes (.jump (regByte r)) s (s.setPc (s.readReg r).toNat)
  | jumpIfEqual (s) (r : Fin 8) : Completes (.jumpIfEqual (regByte r)) s
      (s.setPc (if flagE s.FL then (s.readReg r).toNat else s.pc + 2))
  | jumpIfNotEqual (s) (r : Fin 8) : Completes (.jumpIfNotEqual (regByte r)) s
      (s.setPc (if flagE s.FL then s.pc + 2 else (s.readReg r).toNat))

/-- `Faults i s e`: instruction `i`, run in `s`, raises `e`. -/
inductive Faults : Instr → State → Raised → Prop
  | register (i s) (b : Byte) (hb : i.registerOperands.find? (fun b => !namesRegister b) = some b) :
      Faults i s (registerIndexError b)
  | push (s) (r : Fin 8) (h : s.sp.toNat = 0) : Faults (.push (regByte r)) s (addressError (-1) .stackPush)
  | pop (s) (r : Fin 8) (h : (s.writeReg r (s.mem.read s.sp.toNat)).sp.toNat = 255) :
      Faults (.pop (regByte r)) s (addressError 256 .stackPop)
  | popBound (s) (r : Fin 8) (hb : popR7AtTop r s ∧ Config.popR7AtTopFaults = true) :
      Faults (.pop (regByte r)) s (addressError 256 .stackPop)
  | callSp (s) (r : Fin 8) (h : s.sp.toNat = 0) : Faults (.call (regByte r)) s (addressError (-1) .callPush)
  | callReturn (s) (r : Fin 8) (h : s.sp.toNat ≠ 0) (ha : 255 < s.pc + 2) :
      Faults (.call (regByte r)) s (addressError ((s.pc : Int) + 2) .callReturnAddress)
  | ret (s) (h : s.sp.toNat = 255) : Faults .ret s (addressError 256 .ret)

/-- An instruction whose completion is described runs to the state described. -/
theorem Completes.exec_eq {i : Instr} {s t : State} (h : Completes i s t) : exec i s = .next t := by
  cases h with
  | halt => rfl
  | loadImmediate _ r v =>
    simp only [exec, execLoadImmediate, regOperand_regByte, bind, Except.bind, pure, Except.pure, complete_ok]
  | printRegister _ r =>
    simp only [exec, execPrintRegister, regOperand_regByte, bind, Except.bind, pure, Except.pure, complete_ok]
  | multiply _ ra rb =>
    simp only [exec, execMultiply, aluInPlace, regOperands_regByte, alu_multiply, bind, Except.bind, pure, Except.pure,
      complete_ok]
  | add _ ra rb =>
    simp only [exec, execAdd, aluInPlace, regOperands_regByte, alu_add, bind, Except.bind, pure, Except.pure, complete_ok]
  | push _ r h =>
    simp only [exec, execPush, regOperand_regByte, State.decrementSp_ok _ h, State.memWrite_byte, State.sp_writeReg_sp,
      bind, Except.bind, pure, Except.pure, complete_ok]
  | pop _ r hb h =>
    simp only [exec, execPop, regOperand_regByte, State.memRead_byte, popBound_ok hb, State.incrementSp_ok _ h, bind,
      Except.bind, pure, Except.pure, complete_ok]
  | call _ r h ha =>
    have hr : returnAddress (s.writeReg spReg (s.sp - 1)) = .ok (BitVec.ofNat 8 (s.pc + 2)) := returnAddress_ok ha
    simp only [exec, execCall, regOperand_regByte, State.decrementSp_ok _ h, hr, State.memWrite_byte,
      State.sp_writeReg_sp, State.storeByte_readReg, bind, Except.bind, pure, Except.pure, complete_ok]
  | ret _ h =>
    simp only [exec, execReturn, State.memRead_byte, State.incrementSp_ok _ h, bind, Except.bind, pure, Except.pure,
      complete_ok]
  | compare _ ra rb =>
    simp only [exec, execCompare, regOperands_regByte, bind, Except.bind, pure, Except.pure, complete_ok]
  | jump _ r =>
    simp only [exec, execJump, branchIf, regOperand_regByte, bind, Except.bind, pure, Except.pure, complete_ok, if_true]
  | jumpIfEqual _ r =>
    simp only [exec, execJumpIfEqual, branchIf, regOperand_regByte, bind, Except.bind, pure, Except.pure, complete_ok]
  | jumpIfNotEqual _ r =>
    simp only [exec, execJumpIfNotEqual, branchIf, bind, Except.bind, pure, Except.pure, regOperand_regByte, complete_ok]
    cases flagE s.FL <;> rfl

/-- The operand check comes first, for an instruction of one register operand. -/
theorem exec_oneRegister {i : Instr} {s : State} {op b : Byte} {f : Fin 8 → Except Raised State}
    (h : exec i s = complete op s (regOperand b >>= f)) (hb : 7 < b.toNat) :
    exec i s = .next (s.takeFault (some op) (registerIndexError b)) := by
  rw [h, regOperand_above hb]
  rfl

/-- The first register operand that names no register is the fault the instruction takes (R69, R131). -/
theorem exec_registerFault {i : Instr} {b : Byte} (s : State)
    (h : i.registerOperands.find? (fun b => !namesRegister b) = some b) :
    exec i s = .next (s.takeFault (some i.opcode) (registerIndexError b)) := by
  have one : ∀ b1 : Byte, [b1].find? (fun b => !namesRegister b) = some b → b1 = b ∧ 7 < b1.toNat := by
    intro b1 h1
    have hp := List.find?_some h1
    have hm := List.mem_of_find?_eq_some h1
    simp only [List.mem_singleton] at hm
    subst hm
    refine ⟨rfl, ?_⟩
    simpa [namesRegister] using hp
  have two : ∀ b1 b2 : Byte, [b1, b2].find? (fun b => !namesRegister b) = some b →
      regOperands b1 b2 = .error (registerIndexError b) := by
    intro b1 b2 h2
    by_cases hb1 : 7 < b1.toNat
    · have : namesRegister b1 = false := by simp [namesRegister]; omega
      simp [List.find?, this] at h2
      subst h2
      exact regOperands_first hb1
    · have : namesRegister b1 = true := by simp [namesRegister]; omega
      simp only [List.find?_cons, this, Bool.not_true] at h2
      obtain ⟨rfl, hb2⟩ := one b2 h2
      obtain ⟨ra, rfl, -⟩ | ⟨hb, -⟩ := regOperand_cases b1
      · exact regOperands_second hb2
      · exact absurd hb hb1
  cases i with
  | halt => simp [Instr.registerOperands] at h
  | ret => simp [Instr.registerOperands] at h
  | loadImmediate r v => obtain ⟨rfl, hb⟩ := one _ h; exact exec_oneRegister rfl hb
  | printRegister r => obtain ⟨rfl, hb⟩ := one _ h; exact exec_oneRegister rfl hb
  | push r => obtain ⟨rfl, hb⟩ := one _ h; exact exec_oneRegister rfl hb
  | pop r => obtain ⟨rfl, hb⟩ := one _ h; exact exec_oneRegister rfl hb
  | call r => obtain ⟨rfl, hb⟩ := one _ h; exact exec_oneRegister rfl hb
  | jump r => obtain ⟨rfl, hb⟩ := one _ h; exact exec_oneRegister rfl hb
  | jumpIfEqual r => obtain ⟨rfl, hb⟩ := one _ h; exact exec_oneRegister rfl hb
  | jumpIfNotEqual r => obtain ⟨rfl, hb⟩ := one _ h; exact exec_oneRegister rfl hb
  | multiply ra rb => simp [exec, execMultiply, aluInPlace, two _ _ h, bind, Except.bind, Instr.opcode]
  | add ra rb => simp [exec, execAdd, aluInPlace, two _ _ h, bind, Except.bind, Instr.opcode]
  | compare ra rb => simp [exec, execCompare, two _ _ h, bind, Except.bind, Instr.opcode]

/-- An instruction whose fault is described takes it. -/
theorem Faults.exec_eq {i : Instr} {s : State} {e : Raised} (h : Faults i s e) :
    exec i s = .next (s.takeFault (some i.opcode) e) := by
  cases h with
  | register _ _ b hb => exact exec_registerFault s hb
  | push _ r h =>
    simp only [exec, execPush, regOperand_regByte, State.decrementSp_zero _ h, bind, Except.bind, complete_error,
      Instr.opcode]
  | pop _ r h =>
    by_cases hb : popR7AtTop r s ∧ Config.popR7AtTopFaults = true
    · simp only [exec, execPop, regOperand_regByte, State.memRead_byte, popBound_error hb, bind, Except.bind,
        complete_error, Instr.opcode]
    · simp only [exec, execPop, regOperand_regByte, State.memRead_byte, popBound_ok hb, State.incrementSp_top _ h, bind,
        Except.bind, complete_error, Instr.opcode]
  | popBound _ r hb =>
    simp only [exec, execPop, regOperand_regByte, State.memRead_byte, popBound_error hb, bind, Except.bind,
      complete_error, Instr.opcode]
  | callSp _ r h =>
    simp only [exec, execCall, regOperand_regByte, State.decrementSp_zero _ h, bind, Except.bind, complete_error,
      Instr.opcode]
  | callReturn _ r h ha =>
    have hr : returnAddress (s.writeReg spReg (s.sp - 1)) = .error (addressError ((s.pc : Int) + 2) .callReturnAddress) :=
      returnAddress_above ha
    simp only [exec, execCall, regOperand_regByte, State.decrementSp_ok _ h, hr, bind, Except.bind, complete_error,
      Instr.opcode]
  | ret _ h =>
    simp only [exec, execReturn, State.memRead_byte, State.incrementSp_top _ h, bind, Except.bind, complete_error,
      Instr.opcode]

/-- A register byte above 7 names no register. -/
theorem namesRegister_above {b : Byte} (h : 7 < b.toNat) : namesRegister b = false := by
  simp [namesRegister]; omega

@[simp] theorem namesRegister_regByte (r : Fin 8) : namesRegister (regByte r) = true := by
  have := r.isLt
  simp [namesRegister]; omega

/-- Once its register operands name registers, an instruction completes or takes its stack or return-address fault. -/
theorem exec_wellFormed_cases {i : Instr} (s : State) (hw : i.wellFormed = true) :
    (∃ t, Completes i s t) ∨ ∃ e, Faults i s e := by
  have reg : ∀ b : Byte, namesRegister b = true → ∃ r, b = regByte r := by
    intro b hb
    obtain ⟨r, h, -⟩ | ⟨h, -⟩ := regOperand_cases b
    · exact ⟨r, h⟩
    · simp only [namesRegister, decide_eq_true_eq] at hb; omega
  cases i with
  | halt => exact .inl ⟨_, .halt s⟩
  | ret =>
    by_cases h : s.sp.toNat < 255
    · exact .inl ⟨_, .ret s h⟩
    · have h : s.sp.toNat = 255 := by omega
      exact .inr ⟨_, .ret s h⟩
  | loadImmediate b v =>
    obtain ⟨r, rfl⟩ := reg b (by simpa [Instr.wellFormed, Instr.registerOperands] using hw)
    exact .inl ⟨_, .loadImmediate s r v⟩
  | printRegister b =>
    obtain ⟨r, rfl⟩ := reg b (by simpa [Instr.wellFormed, Instr.registerOperands] using hw)
    exact .inl ⟨_, .printRegister s r⟩
  | jump b =>
    obtain ⟨r, rfl⟩ := reg b (by simpa [Instr.wellFormed, Instr.registerOperands] using hw)
    exact .inl ⟨_, .jump s r⟩
  | jumpIfEqual b =>
    obtain ⟨r, rfl⟩ := reg b (by simpa [Instr.wellFormed, Instr.registerOperands] using hw)
    exact .inl ⟨_, .jumpIfEqual s r⟩
  | jumpIfNotEqual b =>
    obtain ⟨r, rfl⟩ := reg b (by simpa [Instr.wellFormed, Instr.registerOperands] using hw)
    exact .inl ⟨_, .jumpIfNotEqual s r⟩
  | multiply a b =>
    simp only [Instr.wellFormed, Instr.registerOperands, List.all_cons, List.all_nil, Bool.and_true, Bool.and_eq_true] at hw
    obtain ⟨ra, rfl⟩ := reg a hw.1
    obtain ⟨rb, rfl⟩ := reg b hw.2
    exact .inl ⟨_, .multiply s ra rb⟩
  | add a b =>
    simp only [Instr.wellFormed, Instr.registerOperands, List.all_cons, List.all_nil, Bool.and_true, Bool.and_eq_true] at hw
    obtain ⟨ra, rfl⟩ := reg a hw.1
    obtain ⟨rb, rfl⟩ := reg b hw.2
    exact .inl ⟨_, .add s ra rb⟩
  | compare a b =>
    simp only [Instr.wellFormed, Instr.registerOperands, List.all_cons, List.all_nil, Bool.and_true, Bool.and_eq_true] at hw
    obtain ⟨ra, rfl⟩ := reg a hw.1
    obtain ⟨rb, rfl⟩ := reg b hw.2
    exact .inl ⟨_, .compare s ra rb⟩
  | push b =>
    obtain ⟨r, rfl⟩ := reg b (by simpa [Instr.wellFormed, Instr.registerOperands] using hw)
    by_cases h : s.sp.toNat = 0
    · exact .inr ⟨_, .push s r h⟩
    · exact .inl ⟨_, .push s r h⟩
  | pop b =>
    obtain ⟨r, rfl⟩ := reg b (by simpa [Instr.wellFormed, Instr.registerOperands] using hw)
    by_cases hb : popR7AtTop r s ∧ Config.popR7AtTopFaults = true
    · exact .inr ⟨_, .popBound s r hb⟩
    by_cases h : (s.writeReg r (s.mem.read s.sp.toNat)).sp.toNat < 255
    · exact .inl ⟨_, .pop s r hb h⟩
    · have h : (s.writeReg r (s.mem.read s.sp.toNat)).sp.toNat = 255 := by omega
      exact .inr ⟨_, .pop s r h⟩
  | call b =>
    obtain ⟨r, rfl⟩ := reg b (by simpa [Instr.wellFormed, Instr.registerOperands] using hw)
    by_cases h : s.sp.toNat = 0
    · exact .inr ⟨_, .callSp s r h⟩
    · by_cases ha : s.pc + 2 ≤ 255
      · exact .inl ⟨_, .call s r h ha⟩
      · have ha : 255 < s.pc + 2 := by omega
        exact .inr ⟨_, .callReturn s r h ha⟩

/-- Every instruction, in every state, completes or takes a fault. -/
theorem exec_cases (i : Instr) (s : State) : (∃ t, Completes i s t) ∨ ∃ e, Faults i s e := by
  cases hf : i.registerOperands.find? (fun b => !namesRegister b) with
  | some b => exact .inr ⟨_, .register i s b hf⟩
  | none => exact exec_wellFormed_cases s (by simpa [Instr.wellFormed, List.find?_eq_none] using hf)

/-- The inversion lemma of `exec`. -/
theorem exec_next {i : Instr} {s t : State} (h : exec i s = .next t) :
    Completes i s t ∨ ∃ e, Faults i s e ∧ t = s.takeFault (some i.opcode) e := by
  obtain ⟨u, hc⟩ | ⟨e, hf⟩ := exec_cases i s
  · rw [hc.exec_eq] at h
    injection h with h
    exact .inl (h ▸ hc)
  · rw [hf.exec_eq] at h
    injection h with h
    exact .inr ⟨e, hf, h.symm⟩

/-- `exec` always answers a next state. -/
theorem exec_total (i : Instr) (s : State) : ∃ t, exec i s = .next t := by
  obtain ⟨t, hc⟩ | ⟨e, hf⟩ := exec_cases i s
  · exact ⟨t, hc.exec_eq⟩
  · exact ⟨_, hf.exec_eq⟩

end Sys2Proof.Machine
end

