-- ==== Sys2Proof/Laws/PerInstr.lean ====
section
/-! SUPPORT. Statements made per instruction: the family EncodedLength, one lemma per constructor. -/

namespace Sys2Proof.Laws.EncodedLength

/-- The encoding is one byte longer than the operand count that the opcode's two high bits give (spec R65, R72), and the
row of the opcode byte declares that count. -/
def Statement (i : Instr) : Prop :=
  (encode i).length = 1 + i.opcode.toNat / 64 ∧ (lookup i.opcode).map (·.operands) = some (i.opcode.toNat / 64)

theorem halt : Statement .halt := by
  simp [Statement, encode, Instr.opcode, Instr.operandBytes, lookup, opcodeTable]
theorem loadImmediate (reg imm : Byte) : Statement (.loadImmediate reg imm) := by
  simp [Statement, encode, Instr.opcode, Instr.operandBytes, lookup, opcodeTable]
theorem printRegister (reg : Byte) : Statement (.printRegister reg) := by
  simp [Statement, encode, Instr.opcode, Instr.operandBytes, lookup, opcodeTable]
theorem multiply (regA regB : Byte) : Statement (.multiply regA regB) := by
  simp [Statement, encode, Instr.opcode, Instr.operandBytes, lookup, opcodeTable]
theorem add (regA regB : Byte) : Statement (.add regA regB) := by
  simp [Statement, encode, Instr.opcode, Instr.operandBytes, lookup, opcodeTable]
theorem push (reg : Byte) : Statement (.push reg) := by
  simp [Statement, encode, Instr.opcode, Instr.operandBytes, lookup, opcodeTable]
theorem pop (reg : Byte) : Statement (.pop reg) := by
  simp [Statement, encode, Instr.opcode, Instr.operandBytes, lookup, opcodeTable]
theorem call (reg : Byte) : Statement (.call reg) := by
  simp [Statement, encode, Instr.opcode, Instr.operandBytes, lookup, opcodeTable]
theorem ret : Statement .ret := by
  simp [Statement, encode, Instr.opcode, Instr.operandBytes, lookup, opcodeTable]
theorem compare (regA regB : Byte) : Statement (.compare regA regB) := by
  simp [Statement, encode, Instr.opcode, Instr.operandBytes, lookup, opcodeTable]
theorem jump (reg : Byte) : Statement (.jump reg) := by
  simp [Statement, encode, Instr.opcode, Instr.operandBytes, lookup, opcodeTable]
theorem jumpIfEqual (reg : Byte) : Statement (.jumpIfEqual reg) := by
  simp [Statement, encode, Instr.opcode, Instr.operandBytes, lookup, opcodeTable]
theorem jumpIfNotEqual (reg : Byte) : Statement (.jumpIfNotEqual reg) := by
  simp [Statement, encode, Instr.opcode, Instr.operandBytes, lookup, opcodeTable]

end Sys2Proof.Laws.EncodedLength
end

