-- ==== Sys2Proof/Laws/Step.lean ====
section
/-! SUPPORT. What the fetch and a step can do, said once. -/

namespace Sys2Proof.Machine

/-! ### Operand fetch -/

/-- The read of the byte `k` past `pc`. -/
theorem State.memRead_past_pc {s : State} {k : Nat} (ctx : FaultContext) (h : s.pc + k ≤ 255) :
    s.memRead ((s.pc : Int) + (k : Int)) ctx = .ok (s.mem.read (s.pc + k)) := State.memRead_ok ctx h

theorem State.fetchOperands_fits {s : State} {n : Nat} (hn : n ≤ 2) (h : s.pc + n ≤ 255) :
    s.fetchOperands n = .ok (if 1 ≤ n then s.mem.read (s.pc + 1) else 0, if n = 2 then s.mem.read (s.pc + 2) else 0) := by
  obtain rfl | rfl | rfl : n = 0 ∨ n = 1 ∨ n = 2 := by omega
  · rfl
  · have h1 := State.memRead_past_pc (k := 1) .operandFetch h
    simp only [Nat.cast_one] at h1
    simp [State.fetchOperands, h1, bind, Except.bind, pure, Except.pure]
  · have h1 := State.memRead_past_pc (s := s) (k := 1) .operandFetch (by omega)
    have h2 := State.memRead_past_pc (k := 2) .operandFetch h
    simp only [Nat.cast_one] at h1
    simp only [Nat.cast_ofNat] at h2
    simp [State.fetchOperands, h1, h2, bind, Except.bind, pure, Except.pure]

/-- Where the operands reach past address 255, the first address past it, 256, is the fault (R71, R131). -/
theorem State.fetchOperands_past {s : State} {n : Nat} (hn : n ≤ 2) (hp : s.pc ≤ 255) (h : 255 < s.pc + n) :
    s.fetchOperands n = .error (addressError 256 .operandFetch) := by
  have hbad : s.memRead 256 .operandFetch = .error (addressError 256 .operandFetch) := State.memRead_above _ (by omega)
  by_cases h1 : s.pc = 255
  · have hge : n ≥ 1 := by omega
    have e : (s.pc : Int) + 1 = 256 := by omega
    simp [State.fetchOperands, hge, e, hbad, bind, Except.bind]
  · obtain ⟨rfl, h2⟩ : n = 2 ∧ s.pc = 254 := by omega
    have h1 := State.memRead_past_pc (s := s) (k := 1) .operandFetch (by omega)
    simp only [Nat.cast_one] at h1
    have e2 : (s.pc : Int) + 2 = 256 := by omega
    simp [State.fetchOperands, h1, e2, hbad, bind, Except.bind]

/-! ### Fetch -/

theorem State.fetch_beyond {s : State} (h : 255 < s.pc) : s.fetch = .error ⟨none, addressError s.pc .fetch⟩ := by
  rw [State.fetch, State.memRead_above .fetch (by omega)]

theorem State.fetch_unknown {s : State} (hp : s.pc ≤ 255) (h : lookup (s.mem.read s.pc) = none) :
    s.fetch = .error ⟨some (s.mem.read s.pc), unknownOpcodeError (s.mem.read s.pc)⟩ := by
  simp [State.fetch, State.memRead_ok .fetch hp, h]

theorem State.fetch_past {s : State} {row : OpcodeRow} (hp : s.pc ≤ 255) (h : lookup (s.mem.read s.pc) = some row)
    (hl : 255 < s.pc + row.operands) :
    s.fetch = .error ⟨some (s.mem.read s.pc), addressError 256 .operandFetch⟩ := by
  have hn := (build_of_lookup h 0 0).2.2.2
  simp [State.fetch, State.memRead_ok .fetch hp, h, State.fetchOperands_past hn hp hl]

theorem State.fetch_fits {s : State} {row : OpcodeRow} (h : lookup (s.mem.read s.pc) = some row)
    (hl : s.pc + row.operands ≤ 255) :
    s.fetch = .ok (row.build (s.mem.read (s.pc + 1)) (s.mem.read (s.pc + 2))) := by
  have hn := (build_of_lookup h 0 0).2.2.2
  simp only [State.fetch, State.memRead_ok .fetch (show s.pc ≤ 255 by omega), h, State.fetchOperands_fits hn hl]
  refine congrArg _ (build_ignores h _ _ _ _ ?_ ?_)
  · intro h1; rw [if_pos h1]
  · intro h2; rw [if_pos h2]

/-- The fetch, in all its cases: outside memory, an unknown byte, operands past the top, or an instruction. -/
theorem State.fetch_cases (s : State) :
    (255 < s.pc ∧ s.fetch = .error ⟨none, addressError s.pc .fetch⟩) ∨
    (s.pc ≤ 255 ∧ lookup (s.mem.read s.pc) = none ∧
      s.fetch = .error ⟨some (s.mem.read s.pc), unknownOpcodeError (s.mem.read s.pc)⟩) ∨
    (∃ row, s.pc ≤ 255 ∧ lookup (s.mem.read s.pc) = some row ∧ 255 < s.pc + row.operands ∧
      s.fetch = .error ⟨some (s.mem.read s.pc), addressError 256 .operandFetch⟩) ∨
    (∃ row, lookup (s.mem.read s.pc) = some row ∧ s.pc + row.operands ≤ 255 ∧
      s.fetch = .ok (row.build (s.mem.read (s.pc + 1)) (s.mem.read (s.pc + 2)))) := by
  by_cases hp : 255 < s.pc
  · exact .inl ⟨hp, State.fetch_beyond hp⟩
  · have hp : s.pc ≤ 255 := by omega
    cases h : lookup (s.mem.read s.pc) with
    | none => exact .inr (.inl ⟨hp, rfl, State.fetch_unknown hp h⟩)
    | some row =>
      by_cases hl : 255 < s.pc + row.operands
      · exact .inr (.inr (.inl ⟨row, hp, rfl, hl, State.fetch_past hp h hl⟩))
      · exact .inr (.inr (.inr ⟨row, rfl, by omega, State.fetch_fits h (by omega)⟩))

/-- An instruction fetched stands at `pc`, whole, inside the memory. -/
theorem State.fetch_ok {s : State} {i : Instr} (h : s.fetch = .ok i) :
    s.mem.read s.pc = i.opcode ∧ s.pc + i.operandBytes.length ≤ 255 ∧
      i.operandBytes = [s.mem.read (s.pc + 1), s.mem.read (s.pc + 2)].take i.operandBytes.length := by
  obtain ⟨-, e⟩ | ⟨-, -, e⟩ | ⟨_, -, -, -, e⟩ | ⟨row, hr, hl, e⟩ := s.fetch_cases
  · rw [e] at h; cases h
  · rw [e] at h; cases h
  · rw [e] at h; cases h
  · rw [e] at h
    injection h with h
    subst h
    obtain ⟨h1, h2, -, h4⟩ := build_of_lookup hr (s.mem.read (s.pc + 1)) (s.mem.read (s.pc + 2))
    have hlen : (row.build (s.mem.read (s.pc + 1)) (s.mem.read (s.pc + 2))).operandBytes.length = row.operands := by
      rw [h2, List.length_take]
      simpa using h4
    exact ⟨h1.symm, by omega, by rw [hlen, h2]⟩

/-! ### Step -/

theorem step_fetched {s : State} {i : Instr} (h : s.run = .running) (hf : s.fetch = .ok i) : step s = exec i s := by
  simp only [step, h, hf]

theorem step_fetchFault {s : State} {f : FetchFault} (h : s.run = .running) (hf : s.fetch = .error f) :
    step s = .next (s.takeFault f.opcode f.raised) := by simp only [step, h, hf]

theorem step_notRunning {s : State} (h : s.run ≠ .running) : step s = .fault (.notRunning s.run) := by
  rw [step]
  cases hr : s.run <;> simp_all

/-- The inversion lemma of `step`: it is Running; either its fetch faulted, or the fetched instruction completed or
faulted. -/
theorem step_next {s t : State} (h : step s = .next t) :
    s.run = .running ∧
      ((∃ f, s.fetch = .error f ∧ t = s.takeFault f.opcode f.raised) ∨
        (∃ i, s.fetch = .ok i ∧ Completes i s t) ∨
        (∃ i e, s.fetch = .ok i ∧ Faults i s e ∧ t = s.takeFault (some i.opcode) e)) := by
  by_cases hr : s.run = .running
  · refine ⟨hr, ?_⟩
    cases hf : s.fetch with
    | error f =>
      rw [step_fetchFault hr hf] at h
      injection h with h
      exact .inl ⟨f, rfl, h.symm⟩
    | ok i =>
      rw [step_fetched hr hf] at h
      obtain hc | ⟨e, he, ht⟩ := exec_next h
      · exact .inr (.inl ⟨i, rfl, hc⟩)
      · exact .inr (.inr ⟨i, e, rfl, he, ht⟩)
  · rw [step_notRunning hr] at h
    cases h

/-! ### Runs -/

theorem run_zero (s : State) : Host.Core.run Sys2Proof.core 0 s = .next s := rfl

theorem run_succ {n : Nat} {s u : State} (h : step s = .next u) :
    Host.Core.run Sys2Proof.core (n + 1) s = Host.Core.run Sys2Proof.core n u := by
  have : Sys2Proof.core.step s = .next u := h
  simp only [Host.Core.run, this]

/-- A run of one step more that gets through begins with a step that gets through. -/
theorem run_succ_next {n : Nat} {s t : State} (h : Host.Core.run Sys2Proof.core (n + 1) s = .next t) :
    ∃ u, step s = .next u ∧ Host.Core.run Sys2Proof.core n u = .next t := by
  cases hs : step s with
  | next u => exact ⟨u, rfl, by rw [← run_succ hs, h]⟩
  | fault r =>
    have : Sys2Proof.core.step s = .fault r := hs
    simp only [Host.Core.run, this] at h
    cases h
  | refused r =>
    have : Sys2Proof.core.step s = .refused r := hs
    simp only [Host.Core.run, this] at h
    cases h

/-- What every step keeps, every run keeps. -/
theorem run_induction {P : State → State → Prop} (refl : ∀ s, P s s) (trans : ∀ s u t, P s u → P u t → P s t)
    (one : ∀ s t, step s = .next t → P s t) {n : Nat} {s t : State}
    (h : Host.Core.run Sys2Proof.core n s = .next t) : P s t := by
  induction n generalizing s with
  | zero =>
    rw [run_zero] at h
    injection h with h
    exact h ▸ refl s
  | succ n ih =>
    obtain ⟨u, hu, hr⟩ := run_succ_next h
    exact trans s u t (one s u hu) (ih hr)

end Sys2Proof.Machine
end

