-- ==== Sys2Proof/Tests/Slice0.lean ====
section
/-! SUPPORT. The model's own tests. Expected results come from the spec's encodings (30_encoding.md R67) and its vectors
(95_test_vectors.md, named by their ids); then one witness theorem per statement with hypotheses. -/

namespace Sys2Proof.Tests

open Sys2Proof.Machine

/-! ## Helpers -/

/-- Running at `a` with `bytes` there, everything else as after reset. -/
def stateAt (a : Nat) (bytes : List Byte) : State :=
  { State.reset with mem := Memory.writeBytes [] a bytes, pc := a, run := .running }

/-- One step's next state, as data. -/
def after (s : State) : Option State :=
  match step s with
  | .next t => some t
  | .fault _ => none
  | .refused _ => none

/-- The fault record after one step. -/
def faultAfter (s : State) : Option FaultRecord := (after s).bind (·.fault)

/-! ## Well-formedness: an ill-formed term for each check -/

theorem test_wellFormed_refuses_each_register_operand :
    ([.loadImmediate 8 0, .printRegister 8, .multiply 8 0, .multiply 0 8, .add 8 0, .add 0 8, .push 8, .pop 8, .call 8,
      .compare 8 0, .compare 0 8, .jump 8, .jumpIfEqual 8, .jumpIfNotEqual 255] : List Instr).all
      (fun i => !i.wellFormed) = true := by decide

theorem test_wellFormed_accepts_register_seven_and_any_immediate :
    ([.halt, .loadImmediate 7 255, .printRegister 7, .multiply 7 7, .add 7 7, .push 7, .pop 7, .call 7, .ret, .compare 7 7,
      .jump 7, .jumpIfEqual 7, .jumpIfNotEqual 7] : List Instr).all (fun i => i.wellFormed) = true := by decide

/-! ## Decoding, from the binary column of R67 -/

theorem test_decode_halt : decode [0b00000001] = .ok (.halt, []) := by decide
theorem test_decode_loadImmediate : decode [0b10000010, 0, 8] = .ok (.loadImmediate 0 8, []) := by decide
theorem test_decode_printRegister : decode [0b01000111, 3] = .ok (.printRegister 3, []) := by decide
theorem test_decode_multiply : decode [0b10100010, 2, 3] = .ok (.multiply 2 3, []) := by decide
theorem test_decode_add : decode [0b10100000, 0, 1] = .ok (.add 0 1, []) := by decide
theorem test_decode_push : decode [0b01000101, 1] = .ok (.push 1, []) := by decide
theorem test_decode_pop : decode [0b01000110, 2] = .ok (.pop 2, []) := by decide
theorem test_decode_call : decode [0b01010000, 1] = .ok (.call 1, []) := by decide
theorem test_decode_return : decode [0b00010001] = .ok (.ret, []) := by decide
theorem test_decode_compare : decode [0b10100111, 1, 2] = .ok (.compare 1 2, []) := by decide
theorem test_decode_jump : decode [0b01010100, 3] = .ok (.jump 3, []) := by decide
theorem test_decode_jumpIfEqual : decode [0b01010101, 3] = .ok (.jumpIfEqual 3, []) := by decide
theorem test_decode_jumpIfNotEqual : decode [0b01010110, 3] = .ok (.jumpIfNotEqual 3, []) := by decide

/-- V1 to V7: bytes that are no opcode. -/
theorem test_decode_rejects_unknown :
    ([0x00, 0x02, 0xA1, 0xA8, 0x65, 0x13, 0xFF] : List Byte).all
      (fun op => decide (decode [op, 1, 2] = .error (.unknownOpcode op))) = true := by decide

theorem test_decode_rejects_missing_operand : decode [0x82, 3] = .error (.missingOperand 0x82) := by decide

/-- The table's numbering: the second byte is bits 15..8. -/
theorem test_decodeTableWord_operands : decodeTableWord 24 0x080082 = some (.loadImmediate 0 8) := by decide

theorem test_decodeTableWord_zero_operands : decodeTableWord 8 0xA7 = some (.compare 0 0) := by decide

/-- From reset, the word placed is the instruction the next step runs (HALT ends the run at once). -/
theorem test_withFetchWord_runs : (after (State.reset.withFetchWord 8 0x01)).map (·.run) = some .halted := by decide

/-! ## One step, from the vectors -/

/-- V20. -/
theorem test_halt : (after (stateAt 10 [0x01])).map (fun t => (t.run, t.pc)) = some (.halted, 10) := by decide
/-- V14. -/
theorem test_halt_at_top : (after (stateAt 255 [0x01])).map (fun t => (t.run, t.pc)) = some (.halted, 255) := by decide
/-- V11. -/
theorem test_loadImmediate_to_256 :
    (after (stateAt 253 [0x82, 3, 0xAB])).map (fun t => (t.readReg 3, t.pc)) = some (0xAB, 256) := by decide
/-- V23. -/
theorem test_loadImmediate_bad_register :
    faultAfter (stateAt 0 [0x82, 8, 1]) = some ⟨.registerIndexError, 0, some 0x82, 8, .decode⟩ := by decide
/-- V25. -/
theorem test_printRegister :
    (after ((stateAt 0 [0x47, 2]).writeReg 2 0x22)).map (fun t => (t.out, t.pc)) = some ([0x22], 2) := by decide
/-- V27. -/
theorem test_printRegister_bad_register :
    (after (stateAt 0 [0x47, 0xFF])).map (fun t => (t.out, t.run)) = some ([], .faulted) := by decide
/-- V30. -/
theorem test_add_wraps :
    (after (((stateAt 0 [0xA0, 0, 1]).writeReg 0 250).writeReg 1 10)).map (fun t => (t.readReg 0, t.readReg 1, t.pc)) =
      some (4, 10, 3) := by decide
/-- V34. -/
theorem test_add_bad_second_register :
    faultAfter (stateAt 0 [0xA0, 0, 9]) = some ⟨.registerIndexError, 0, some 0xA0, 9, .decode⟩ := by decide
/-- V35. -/
theorem test_multiply_wraps :
    (after (((stateAt 0 [0xA2, 0, 1]).writeReg 0 20).writeReg 1 13)).map (fun t => t.readReg 0) = some 4 := by decide
/-- V38. -/
theorem test_multiply_squares :
    (after ((stateAt 0 [0xA2, 0, 0]).writeReg 0 255)).map (fun t => t.readReg 0) = some 1 := by decide
/-- V51: the PUSH overwrites its own opcode byte. -/
theorem test_push_at_one :
    (after (((stateAt 0 [0x45, 1]).writeReg 7 1).writeReg 1 42)).map (fun t => (t.sp, t.mem.read 0, t.pc)) =
      some (0, 42, 2) := by decide
/-- V53. -/
theorem test_push_r7 :
    (after (stateAt 0 [0x45, 7])).map (fun t => (t.sp, t.mem.read 0xF3)) = some (0xF3, 0xF3) := by decide
/-- V58, its byte by a write to memory. -/
theorem test_pop :
    (after (((stateAt 0 [0x46, 2]).storeByte 254 9).writeReg 7 254)).map (fun t => (t.readReg 2, t.sp)) =
      some (9, 255) := by decide
/-- V60. -/
theorem test_pop_r7 :
    (after (((stateAt 0 [0x46, 7]).storeByte 0x80 0x30).writeReg 7 0x80)).map (fun t => t.sp) = some 0x31 := by decide
/-- V62. -/
theorem test_call :
    (after ((stateAt 3 [0x50, 1]).writeReg 1 8)).map (fun t => (t.sp, t.mem.read 0xF3, t.pc)) = some (0xF3, 5, 8) := by
  decide
/-- V66: the SP bound comes before the return-address bound. -/
theorem test_call_sp_bound_first :
    faultAfter ((stateAt 254 [0x50, 1]).writeReg 7 0) = some ⟨.addressError, 254, some 0x50, -1, .callPush⟩ := by decide
/-- V69. -/
theorem test_return :
    (after (((stateAt 9 [0x11]).storeByte 0xF3 5).writeReg 7 0xF3)).map (fun t => (t.sp, t.pc)) = some (0xF4, 5) := by
  decide
/-- V71. -/
theorem test_return_at_top :
    faultAfter ((stateAt 0 [0x11]).writeReg 7 255) = some ⟨.addressError, 0, some 0x11, 256, .ret⟩ := by decide
/-- V84. -/
theorem test_compare_less_keeps_upper_bits :
    (after { ((stateAt 0 [0xA7, 1, 2]).writeReg 1 3).writeReg 2 5 with FL := 0xFF }).map (fun t => t.FL) = some 0xFC := by
  decide
/-- V83. -/
theorem test_compare_unsigned :
    (after (((stateAt 0 [0xA7, 1, 2]).writeReg 1 0x80).writeReg 2 0x7F)).map (fun t => t.FL) = some 0x02 := by decide
/-- V89: a jump to itself. -/
theorem test_jump_to_itself : (after ((stateAt 6 [0x54, 1]).writeReg 1 6)).map (fun t => t.pc) = some 6 := by decide
/-- V92. -/
theorem test_jumpIfEqual_tests_bit_zero :
    (after { (stateAt 0 [0x55, 1]).writeReg 1 0x40 with FL := 0xFE }).map (fun t => t.pc) = some 2 := by decide
/-- V93. -/
theorem test_jumpIfEqual_falls_to_256 : (after (stateAt 254 [0x55, 1])).map (fun t => t.pc) = some 256 := by decide
/-- V95. -/
theorem test_jumpIfNotEqual_taken :
    (after { (stateAt 0 [0x56, 1]).writeReg 1 0x40 with FL := 0x06 }).map (fun t => t.pc) = some 0x40 := by decide
/-- V97. -/
theorem test_jumpIfNotEqual_checks_register :
    faultAfter { stateAt 0 [0x56, 9] with FL := 1 } = some ⟨.registerIndexError, 0, some 0x56, 9, .decode⟩ := by decide
/-- V10. -/
theorem test_fetch_at_256 : faultAfter (stateAt 256 []) = some ⟨.addressError, 256, none, 256, .fetch⟩ := by decide
/-- V12. -/
theorem test_operandFetch_at_254 :
    faultAfter (stateAt 254 [0x82, 3]) = some ⟨.addressError, 254, some 0x82, 256, .operandFetch⟩ := by decide
/-- W8. -/
theorem test_opcode_zero : faultAfter (stateAt 0 [0x00]) = some ⟨.unknownOpcodeError, 0, some 0, 0, .decode⟩ := by decide
/-- V42. -/
theorem test_alu_select : alu 0xA1 5 3 = .error ⟨.unsupportedOperationError, 0xA1, .alu⟩ := by decide

/-! ## The host's side -/

/-- W10, and R160's rule for what follows the first 8 characters. -/
theorem test_lineByte : lineByte ['1', '0', '0', '0', '0', '0', '1', '0', ' ', '#'] = some 0x82 := by decide
/-- R161: a short line. -/
theorem test_lineByte_short : lineByte ['1', '0'] = none := by decide
/-- V26's rendering. -/
theorem test_render : renderByte 0xF4 = ['2', '4', '4'] := by decide

/-- R77's example: `LOAD_IMMEDIATE r0, 8`, here by its alias and in the three number forms. -/
theorem test_assemble_immediates :
    assemble ['L', 'D', 'I'] [['r', '0'], ['8']] = some (.loadImmediate 0 8) ∧
    assemble ['L', 'D', 'I'] [['S', 'P'], ['0', 'x', '2', 'A']] = some (.loadImmediate 7 42) ∧
    assemble ['L', 'D', 'I'] [['r', '7'], ['0', 'b', '1', '0', '0', '0', '0', '0', '1', '0']] =
      some (.loadImmediate 7 0x82) := by decide

theorem test_assemble_rejects : assemble ['P', 'O', 'P'] [['r', '8']] = none ∧
    assemble ['L', 'D', 'I'] [['r', '0'], ['2', '5', '6']] = none ∧ assemble ['N', 'O', 'P'] [] = none := by decide

/-! ## Witnesses: the hypotheses of every statement are met, each clause at a boundary value -/

/-- The `sp` of `stateAt` is 0xF4, and its memory is canonical. -/
theorem witness_push : (stateAt 0 [0x45, 1]).mem.wf = true ∧ ((stateAt 0 [0x45, 1]).writeReg 7 1).sp.toNat ≠ 0 ∧
    ((stateAt 0 [0x45, 1]).writeReg 7 0).sp.toNat = 0 := by decide

theorem witness_pop : (1 : Fin 8) ≠ spReg ∧ ((stateAt 0 [0x46, 1]).writeReg 7 254).sp.toNat < 255 ∧
    ((stateAt 0 [0x46, 1]).writeReg 7 255).sp.toNat = 255 ∧
    ((stateAt 0 [0x46, 7]).mem.read (stateAt 0 [0x46, 7]).sp.toNat).toNat < 255 ∧
    (((stateAt 0 [0x46, 7]).storeByte 0xF4 255).mem.read ((stateAt 0 [0x46, 7]).storeByte 0xF4 255).sp.toNat).toNat = 255 := by
  decide

/-- `POP r7` at SP = 255 with a byte below 255 there (log entry 23), and with 255 there. -/
theorem witness_pop_r7_at_the_top :
    (((stateAt 0 [0x46, 7]).writeReg 7 255).storeByte 255 254).sp.toNat = 255 ∧
    ((((stateAt 0 [0x46, 7]).writeReg 7 255).storeByte 255 254).mem.read 255).toNat < 255 ∧
    ((((stateAt 0 [0x46, 7]).writeReg 7 255).storeByte 255 255).mem.read 255).toNat = 255 := by decide

theorem witness_call : (stateAt 253 [0x50, 1]).mem.wf = true ∧ (stateAt 253 [0x50, 1]).sp.toNat ≠ 0 ∧
    (stateAt 253 [0x50, 1]).pc + 2 ≤ 255 ∧ ((stateAt 253 [0x50, 1]).writeReg 7 0).sp.toNat = 0 ∧
    (stateAt 254 [0x50, 1]).sp.toNat ≠ 0 ∧ (stateAt 254 [0x50, 1]).pc = 254 := by decide

theorem witness_return : ((stateAt 255 [0x11]).writeReg 7 254).sp.toNat < 255 ∧
    ((stateAt 255 [0x11]).writeReg 7 255).sp.toNat = 255 ∧ (stateAt 255 [0x11]).run = .running ∧
    (stateAt 255 [0x11]).pc ≤ 255 ∧ (stateAt 255 [0x11]).mem.read (stateAt 255 [0x11]).pc = 0x11 := by decide

theorem witness_halt : (stateAt 255 [0x01]).run = .running ∧ (stateAt 255 [0x01]).pc ≤ 255 ∧
    (stateAt 255 [0x01]).mem.read (stateAt 255 [0x01]).pc = 0x01 ∧ ((stateAt 255 [0x01]).setRun .halted).run = .halted := by
  decide

/-- OperandFetchFault: for each opcode and address it is stated of, a running state at that address with that byte. -/
theorem witness_operandFetchFault :
    ([(0x82, 254), (0x82, 255), (0x47, 255), (0xA0, 254), (0xA0, 255), (0xA2, 254), (0xA2, 255), (0x45, 255), (0x46, 255),
      (0x50, 255), (0xA7, 254), (0xA7, 255), (0x54, 255), (0x55, 255), (0x56, 255)] : List (Byte × Nat)).all
      (fun p => decide ((stateAt p.2 [p.1]).run = .running ∧ (stateAt p.2 [p.1]).pc = p.2 ∧
        (stateAt p.2 [p.1]).mem.read p.2 = p.1)) = true := by decide

/-- RegisterIndexFault: the least byte above 7, as a first and as a second operand. -/
theorem witness_registerIndexFault : 7 < (8 : Byte).toNat ∧
    (Instr.add 8 0).registerOperands.find? (fun b => decide (7 < b.toNat)) = some 8 ∧
    (Instr.compare 7 8).registerOperands.find? (fun b => decide (7 < b.toNat)) = some 8 := by decide

theorem witness_branch_taken_or_not : flagE (0x01 : Byte) = true ∧ flagE (0xFE : Byte) = false := by decide

theorem witness_encodeAfterDecode : decode [0x54, 3, 0x01] = .ok (.jump 3, [0x01]) := by decide

theorem witness_opcodeHighBits : (lookup 0x82).isSome = true ∧ (lookup 0x01).isSome = true := by decide

/-- At the top of memory, with one, two and three bytes. -/
theorem witness_stepRunsTheDecodedInstruction : (stateAt 255 [0x01]).run = .running ∧
    decode (bytesAt (stateAt 255 [0x01]).mem 255) = .ok (.halt, []) ∧
    decode (bytesAt (stateAt 254 [0x54, 3]).mem 254) = .ok (.jump 3, []) ∧
    decode (bytesAt (stateAt 253 [0xA0, 1, 2]).mem 253) = .ok (.add 1 2, []) := by decide

theorem witness_fetchOutsideMemory : (stateAt 256 []).run = .running ∧ (stateAt 256 []).pc = 256 ∧ (stateAt 256 []).Inv := by
  refine ⟨rfl, rfl, ⟨by decide, by decide, by decide, ?_⟩⟩
  intro r h
  cases h

theorem witness_unknownOpcodes : (stateAt 255 [0xFF]).run = .running ∧ (stateAt 255 [0xFF]).pc ≤ 255 ∧
    (stateAt 255 [0xFF]).mem.read (stateAt 255 [0xFF]).pc = 0xFF ∧ unlistedOpcode 0xFF ∧ unlistedOpcode 0x00 := by
  unfold unlistedOpcode
  decide

theorem witness_operandFetchReads :
    (lookup ((stateAt 253 [0x82, 0, 1]).mem.read 253)).map (fun row => decide (253 + row.operands ≤ 255)) = some true ∧
    (lookup ((stateAt 254 [0x82, 0]).mem.read 254)).map (fun row => decide (255 < 254 + row.operands)) = some true ∧
    (stateAt 253 [0x82, 0, 1]).run = .running ∧ (stateAt 254 [0x82, 0]).run = .running := by decide

theorem witness_noTransitionOutsideRunning : State.reset.run ≠ .running ∧ (State.reset.setRun .halted).run ≠ .running ∧
    (State.reset.setRun .faulted).run ≠ .running := by decide

theorem witness_running : (State.reset.setRun .running).run = .running ∧ (State.reset.setRun .running).fault = none := by
  decide

theorem witness_genericAdvance : ∃ t, exec (.add (regByte 0) (regByte 1)) (stateAt 0 []) = .next t ∧ t.run ≠ .faulted ∧
    (Instr.add (regByte 0) (regByte 1)).pcSetting = false ∧ Instr.add (regByte 0) (regByte 1) ≠ .halt :=
  ⟨_, rfl, by decide, rfl, by decide⟩

theorem witness_unsupportedSelect : (0xA1 : Byte) ≠ 0xA0 ∧ (0xA1 : Byte) ≠ 0xA2 := by decide

/-- A step that ends Faulted with a record: for the statements about faulted steps and the fault table. -/
theorem witness_faultedStep : ∃ t k, step (stateAt 0 [0x00]) = .next t ∧ t.run = .faulted ∧ t.fault = some k ∧
    (stateAt 0 [0x00]).pc ≤ 256 ∧ (stateAt 0 [0x00]).run = .running := ⟨_, _, rfl, rfl, rfl, by decide, rfl⟩

/-- An instruction, run in Running, that ends Faulted. -/
theorem witness_faultedExec : ∃ t, (stateAt 0 []).run = .running ∧ exec (.push 8) (stateAt 0 []) = .next t ∧
    t.run = .faulted := ⟨_, rfl, rfl, rfl⟩

/-- StackRoundTrips: SP at the least value from which PUSH and CALL complete; two different registers at the ends of
r0..r6; and a state whose SP and byte at SP are as the CALL left them. -/
theorem witness_stackRoundTrips : ((stateAt 253 [0x50, 1]).writeReg 7 1).mem.wf = true ∧
    ((stateAt 253 [0x50, 1]).writeReg 7 1).sp.toNat ≠ 0 ∧ ((stateAt 253 [0x50, 1]).writeReg 7 1).pc + 2 ≤ 255 ∧
    (0 : Fin 8) ≠ spReg ∧ (6 : Fin 8) ≠ spReg ∧ (0 : Fin 8) ≠ 6 ∧
    ∃ t u : State, exec (.call (regByte 1)) ((stateAt 253 [0x50, 1]).writeReg 7 1) = .next t ∧ u.sp = t.sp ∧
      u.mem.read u.sp.toNat = t.mem.read t.sp.toNat :=
  ⟨by decide, by decide, by decide, by decide, by decide, by decide, _, _, rfl, rfl, rfl⟩

/-- FetchSeesThePushedByte: PUSH and CALL complete, up to the last `pc` from which CALL does. -/
theorem witness_fetchSeesThePushedByte : (stateAt 253 []).mem.wf = true ∧ (stateAt 253 []).run = .running ∧
    ((stateAt 253 []).writeReg 7 255).sp.toNat ≠ 0 ∧ (stateAt 253 []).pc + 2 ≤ 255 := by decide

/-- Its clauses about the byte `v` at `a`: HALT; unlisted; in the table with the operands inside memory, and, at the
highest address a push stores to, past it; the first operand and the second operand of an instruction just below `a`. -/
theorem witness_fetchesUse : unlistedOpcode 0x00 ∧
    (lookup 0x01).map (fun row => decide (254 + row.operands ≤ 255)) = some true ∧
    (lookup 0x82).map (fun row => decide (253 + row.operands ≤ 255)) = some true ∧
    (lookup 0x82).map (fun row => decide (255 < 254 + row.operands)) = some true ∧
    (lookup ((stateAt 253 [0x54]).mem.read 253)).map (fun row => decide (1 ≤ row.operands ∧ 253 + row.operands ≤ 255)) =
      some true ∧
    (lookup ((stateAt 252 [0xA0]).mem.read 252)).map (fun row => decide (row.operands = 2)) = some true := by
  unfold unlistedOpcode
  decide

/-- The port's addresses at both ends, and just past them; a canonical memory. -/
theorem witness_memoryPort : (0 : Int) ≤ 0 ∧ (0 : Int) ≤ 255 ∧ (255 : Int) ≤ 255 ∧ (-1 : Int) < 0 ∧ (255 : Int) < 256 ∧
    (stateAt 0 [0x01]).mem.wf = true := by decide

/-- A step that changes a byte of memory, a register, the flags, the output. -/
theorem witness_changes :
    (after ((stateAt 0 [0x45, 1]).writeReg 1 42)).map (fun t => decide (t.mem.read 0xF3 = 42)) = some true ∧
    (stateAt 0 [0x45, 1]).mem.read 0xF3 = 0 ∧
    (∃ t, exec (.loadImmediate (regByte 1) 42) (stateAt 0 []) = .next t ∧ t.readReg 1 ≠ (stateAt 0 []).readReg 1) ∧
    (∃ t, exec (.compare (regByte 1) (regByte 1)) (stateAt 0 []) = .next t ∧ t.FL ≠ (stateAt 0 []).FL) ∧
    (after (stateAt 0 [0x47, 7])).map (fun t => t.out) = some [0xF4] :=
  ⟨by decide, by decide, ⟨_, rfl, by decide⟩, ⟨_, rfl, by decide⟩, by decide⟩

/-- The non-branches meet the hypotheses of the statement about reading no flag; FL bytes that agree on bit 0. -/
theorem witness_flagReads : (∀ b, Instr.halt ≠ .jumpIfEqual b) ∧ (∀ b, Instr.halt ≠ .jumpIfNotEqual b) ∧
    flagE (0xFE : Byte) = flagE (0x00 : Byte) := by
  refine ⟨?_, ?_, by decide⟩ <;> intro b h <;> cases h

/-- A run of one step; a FL with exactly one flag; a FL of the four values. -/
theorem witness_flagsOverRuns : ∃ t, Host.Core.run Sys2Proof.core 1 (stateAt 0 [0xA7, 1, 2]) = .next t ∧
    (stateAt 0 [0xA7, 1, 2]).FL = 0x00 ∧ OneFlagSet t.FL := by
  refine ⟨_, rfl, rfl, .inl ?_⟩
  decide

theorem witness_runEnds : ∃ t, (stateAt 0 [0x01]).run = .running ∧ (stateAt 0 [0x01]).fault = none ∧
    runWithFuel 1 (stateAt 0 [0x01]) = .ended t := ⟨_, rfl, rfl, rfl⟩

theorem witness_outOfFuel : ∃ t, runWithFuel 1 (stateAt 0 [0x54, 0]) = .outOfFuel t := ⟨_, rfl⟩

theorem witness_stepKeepsTheInvariant : ∃ t, (stateAt 0 [0x01]).Inv ∧ step (stateAt 0 [0x01]) = .next t := by
  refine ⟨_, ⟨by decide, by decide, by decide, ?_⟩, rfl⟩
  intro r h
  cases h

theorem witness_loadAndStart : State.reset.Inv ∧ (State.reset.load (List.replicate 2 0x01)).isSome = true ∧
    State.reset.start.isSome = true := by
  refine ⟨⟨by decide, by decide, by decide, ?_⟩, by decide, by decide⟩
  intro r h
  cases h

theorem witness_image : (List.replicate 256 (0x01 : Byte)).length ≤ 256 ∧ ([] : List Byte).length ≤ 256 := by
  rw [List.length_replicate]
  decide

theorem witness_hostRequests : State.reset.run = .ready ∧ (stateAt 0 []).run ≠ .ready ∧ (stateAt 0 []).run = .running ∧
    State.reset.run ≠ .running := by decide

/-- The longest program file, and a comment line shorter than 8 characters in a file (log entry 17). -/
theorem witness_loader_boundaries : (List.replicate 256 ((0x01 : Byte), ([] : List Char))).length ≤ 256 ∧
    loadProgram [['#'], ['0', '0', '0', '0', '0', '0', '0', '1']] = some [0x01] := by
  refine ⟨by rw [List.length_replicate], by decide⟩

theorem witness_loader : (List.replicate 257 ((0 : Byte), ([] : List Char))).length > 256 ∧
    (['1', '0'] : List Char).head? ≠ some '#' ∧ (['1', '0'] : List Char).length < 8 ∧
    (∃ c ∈ (['1', '0', '1', '0', '1', '0', '1', '2'] : List Char).take 8, c ≠ '0' ∧ c ≠ '1') := by
  refine ⟨by rw [List.length_replicate]; decide, by decide, by decide, '2', by decide, by decide, by decide⟩

theorem witness_assembly : (Instr.loadImmediate 7 255).wellFormed = true ∧
    assemble ['C', 'M', 'P'] [['r', '0'], ['r', '7']] = some (.compare 0 7) ∧
    (⟨0xA7, ['C', 'O', 'M', 'P', 'A', 'R', 'E'], ['C', 'M', 'P']⟩ : MnemonicRow) ∈ mnemonicTable := by decide

theorem witness_renderNonZero : (1 : Byte) ≠ 0 := by decide

end Sys2Proof.Tests
end

namespace Sys2Proof.Machine

/-! ## What a completed instruction does to `FL` and to the output trace -/

/-- R30: a completed instruction leaves `FL`, or is a COMPARE, which writes bits 2..0. -/
theorem Completes.FL_cases {i : Instr} {s t : State} (h : Completes i s t) :
    t.FL = s.FL ∨ ∃ ra rb, i = .compare (regByte ra) (regByte rb) ∧
      t.FL = (flagsUnused s.FL ++ compareFlags (s.readReg ra) (s.readReg rb) : BitVec 8) := by
  cases h with
  | compare _ ra rb => exact .inr ⟨ra, rb, rfl, rfl⟩
  | _ => exact .inl rfl

/-- R34: a completed instruction leaves the output trace, or is a PRINT_REGISTER, which appends its register's byte. -/
theorem Completes.out_cases {i : Instr} {s t : State} (h : Completes i s t) :
    t.out = s.out ∨ ∃ r, i = .printRegister (regByte r) ∧ t.out = s.out ++ [s.readReg r] := by
  cases h with
  | printRegister _ r => exact .inr ⟨r, rfl, rfl⟩
  | _ => exact .inl rfl

/-- `FL` after `exec`: a fault writes no flag, so the cases are those of a completed instruction. -/
theorem exec_FL_cases {i : Instr} {s t : State} (h : exec i s = .next t) :
    t.FL = s.FL ∨ ∃ ra rb, i = .compare (regByte ra) (regByte rb) ∧
      t.FL = (flagsUnused s.FL ++ compareFlags (s.readReg ra) (s.readReg rb) : BitVec 8) := by
  obtain hc | ⟨e, -, rfl⟩ := exec_next h
  · exact hc.FL_cases
  · exact .inl rfl

/-! ## What an instruction reads -/

/-- Whether an instruction faults, and with what, depends on the memory, the registers and `pc` alone. -/
theorem Faults.congr {i : Instr} {s s' : State} {e : Raised} (h : Faults i s e) (hmem : s'.mem = s.mem)
    (hx : s'.x = s.x) (hpc : s'.pc = s.pc) : Faults i s' e := by
  obtain ⟨mem, x, pc, FL, run, fault, out⟩ := s
  obtain ⟨mem', x', pc', FL', run', fault', out'⟩ := s'
  subst hmem hx hpc
  cases h with
  | register _ _ b hb => exact .register i _ b hb
  | push _ r h => exact .push _ r h
  | pop _ r h => exact .pop _ r h
  | popBound _ r hb => exact .popBound _ r hb
  | callSp _ r h => exact .callSp _ r h
  | callReturn _ r h ha => exact .callReturn _ r h ha
  | ret _ h => exact .ret _ h

/-- R30, R34: with another `FL` and another output trace an instruction completes alike, up to these two, if it is no
conditional jump or the Equal bits agree; and neither of the two reaches the other. -/
theorem Completes.with_FL_out {i : Instr} {s t : State} {fl : Byte} (o : List Byte) (h : Completes i s t)
    (hE : flagE fl = flagE s.FL ∨ (∀ b, i ≠ .jumpIfEqual b) ∧ ∀ b, i ≠ .jumpIfNotEqual b) :
    ∃ fl' o', Completes i { s with FL := fl, out := o } { t with FL := fl', out := o' } ∧
      (fl = s.FL → fl' = t.FL) ∧ (o = s.out → o' = t.out) := by
  cases h with
  | jumpIfEqual _ r =>
    have hE : flagE fl = flagE s.FL := hE.resolve_right fun hn => hn.1 _ rfl
    exact ⟨fl, o, hE ▸ .jumpIfEqual { s with FL := fl, out := o } r, id, id⟩
  | jumpIfNotEqual _ r =>
    have hE : flagE fl = flagE s.FL := hE.resolve_right fun hn => hn.2 _ rfl
    exact ⟨fl, o, hE ▸ .jumpIfNotEqual { s with FL := fl, out := o } r, id, id⟩
  | compare _ ra rb =>
    exact ⟨_, _, .compare _ ra rb,
      congrArg fun f => (flagsUnused f ++ compareFlags (s.readReg ra) (s.readReg rb) : BitVec 8), id⟩
  | printRegister _ r => exact ⟨_, _, .printRegister _ r, id, congrArg (· ++ [s.readReg r])⟩
  | halt => exact ⟨_, _, .halt _, id, id⟩
  | loadImmediate _ r v => exact ⟨_, _, .loadImmediate _ r v, id, id⟩
  | multiply _ ra rb => exact ⟨_, _, .multiply _ ra rb, id, id⟩
  | add _ ra rb => exact ⟨_, _, .add _ ra rb, id, id⟩
  | push _ r h => exact ⟨_, _, .push _ r h, id, id⟩
  | pop _ r hb h => exact ⟨_, _, .pop _ r hb h, id, id⟩
  | call _ r h ha => exact ⟨_, _, .call _ r h ha, id, id⟩
  | ret _ h => exact ⟨_, _, .ret _ h, id, id⟩
  | jump _ r => exact ⟨_, _, .jump _ r, id, id⟩

/-- `exec` with another `FL` and another output trace differs at most in these two, each of them on account of itself
alone, under the condition of `Completes.with_FL_out`. -/
theorem exec_with_FL_out {i : Instr} {s : State} {fl : Byte} (o : List Byte)
    (hE : flagE fl = flagE s.FL ∨ (∀ b, i ≠ .jumpIfEqual b) ∧ ∀ b, i ≠ .jumpIfNotEqual b) :
    ∃ t fl' o', exec i s = .next t ∧ exec i { s with FL := fl, out := o } = .next { t with FL := fl', out := o' } ∧
      (fl = s.FL → fl' = t.FL) ∧ (o = s.out → o' = t.out) := by
  obtain ⟨t, hc⟩ | ⟨e, hf⟩ := exec_cases i s
  · obtain ⟨fl', o', hc', hfl, ho⟩ := hc.with_FL_out o hE
    exact ⟨t, fl', o', hc.exec_eq, hc'.exec_eq, hfl, ho⟩
  · have hf' : Faults i { s with FL := fl, out := o } e := hf.congr rfl rfl rfl
    exact ⟨_, fl, o, hf.exec_eq, hf'.exec_eq, id, id⟩

/-- `exec` with another `FL` differs at most in `FL`, under the condition of `Completes.with_FL_out`. -/
theorem exec_with_FL {i : Instr} {s : State} {fl : Byte}
    (hE : flagE fl = flagE s.FL ∨ (∀ b, i ≠ .jumpIfEqual b) ∧ ∀ b, i ≠ .jumpIfNotEqual b) :
    ∃ t t', exec i s = .next t ∧ exec i { s with FL := fl } = .next t' ∧ t' = { t with FL := t'.FL } := by
  obtain ⟨t, fl', o', h, h', -, ho⟩ := exec_with_FL_out s.out hE
  obtain rfl := ho rfl
  exact ⟨t, _, h, h', rfl⟩

/-- `exec` with another output trace differs at most in the trace. -/
theorem exec_with_out (i : Instr) (s : State) (o : List Byte) :
    ∃ t t', exec i s = .next t ∧ exec i { s with out := o } = .next t' ∧ t' = { t with out := t'.out } := by
  obtain ⟨t, fl', o', h, h', hfl, -⟩ := exec_with_FL_out (i := i) (s := s) o (.inl rfl)
  obtain rfl := hfl rfl
  exact ⟨t, _, h, h', rfl⟩

/-! ## The obligations -/

/-- Settles O30: by what `exec` can do to `FL`, and by running each instruction from the state with the other `FL`. -/
theorem onlyCompareWritesFlagsAndOnlyEqualIsRead : Obligations.OnlyCompareWritesFlagsAndOnlyEqualIsRead := by
  unfold Obligations.OnlyCompareWritesFlagsAndOnlyEqualIsRead
  refine ⟨fun i s t h => ?_, fun i s fl hE => exec_with_FL (.inl hE),
    fun i s fl hjeq hjne => exec_with_FL (.inr ⟨hjeq, hjne⟩)⟩
  obtain hFL | ⟨ra, rb, rfl, hFL⟩ := exec_FL_cases h
  · exact ⟨by rw [hFL], fun hne => absurd hFL hne⟩
  · exact ⟨by rw [hFL, flagsUnused_append], fun _ => ⟨_, _, rfl⟩⟩

/-- Settles O31: by the inversion lemma of `step`, and by running each instruction from the state with the other
trace. -/
theorem outputTraceOnlyGrowsByPrint : Obligations.OutputTraceOnlyGrowsByPrint := by
  unfold Obligations.OutputTraceOnlyGrowsByPrint
  refine ⟨fun _ _ => rfl, fun s t h => ?_, fun s r => ⟨_, (Completes.printRegister s r).exec_eq, rfl⟩, exec_with_out⟩
  obtain ⟨-, ⟨f, -, rfl⟩ | ⟨i, hfetch, hc⟩ | ⟨i, e, -, -, rfl⟩⟩ := step_next h
  · exact .inl rfl
  · obtain hout | ⟨r, rfl, hout⟩ := hc.out_cases
    · exact .inl hout
    · exact .inr ⟨r, hfetch, hout⟩
  · exact .inl rfl

end Sys2Proof.Machine

namespace Sys2Proof.Machine

/-! ## The memory port, by where the address lies -/

section
variable {s : State} {a : Int}

theorem State.memRead_inside (ctx : FaultContext) (h0 : 0 ≤ a) (h255 : a ≤ 255) :
    s.memRead a ctx = .ok (s.mem.read a.toNat) := by
  obtain ⟨-, -, hr⟩ | ⟨hout, -⟩ := s.memRead_cases a ctx
  · exact hr
  · omega

theorem State.memRead_outside (ctx : FaultContext) (h : a < 0 ∨ 255 < a) :
    s.memRead a ctx = .error (addressError a ctx) := by
  obtain ⟨h0, h255, -⟩ | ⟨-, hr⟩ := s.memRead_cases a ctx
  · omega
  · exact hr

theorem State.memWrite_inside (v : Byte) (ctx : FaultContext) (h0 : 0 ≤ a) (h255 : a ≤ 255) :
    s.memWrite a v ctx = .ok (s.storeByte a.toNat v) := by
  obtain ⟨-, -, hw⟩ | ⟨hout, -⟩ := s.memWrite_cases a v ctx
  · exact hw
  · omega

theorem State.memWrite_outside (v : Byte) (ctx : FaultContext) (h : a < 0 ∨ 255 < a) :
    s.memWrite a v ctx = .error (addressError a ctx) := by
  obtain ⟨h0, h255, -⟩ | ⟨-, hw⟩ := s.memWrite_cases a v ctx
  · omega
  · exact hw

/-- R48 then R47: a read of the cell just stored to gives the byte stored. -/
theorem State.memRead_storeByte (v : Byte) (ctx : FaultContext) (hwf : s.mem.wf = true) (h0 : 0 ≤ a) (h255 : a ≤ 255) :
    (s.storeByte a.toNat v).memRead a ctx = .ok v := by
  rw [State.memRead_inside ctx h0 h255, State.storeByte_mem, Memory.read_write _ hwf, if_pos rfl]

end

theorem State.storeByte_memorySameBut (s : State) (a : Nat) (v : Byte) : MemorySameBut a s (s.storeByte a v) :=
  fun _ hne => Memory.read_write_ne hne

/-! ## The obligation on the port -/

/-- Settles O27: by where the address lies; a write inside is `State.storeByte`, whose read-back, canonical form and
frame are lemmas. -/
theorem memoryPortRejectsOutsideAddresses : Obligations.MemoryPortRejectsOutsideAddresses := by
  unfold Obligations.MemoryPortRejectsOutsideAddresses
  refine fun s a v ctx => ⟨fun h0 h255 => ?_, fun hout => ?_⟩
  · have hcell : a.toNat < 256 := by omega
    exact ⟨State.memRead_inside ctx h0 h255, s.storeByte a.toNat v, State.memWrite_inside v ctx h0 h255,
      fun hwf => ⟨State.memRead_storeByte v ctx hwf h0 h255, Memory.wf_write hwf hcell⟩,
      s.storeByte_memorySameBut a.toNat v, s.storeByte_readReg a.toNat v, rfl, rfl, rfl, rfl, rfl⟩
  · exact ⟨State.memRead_outside ctx hout, State.memWrite_outside v ctx hout⟩

end Sys2Proof.Machine

namespace Sys2Proof.Machine

/-! ## The bytes outside the table -/

theorem lookup_eq_none_iff {op : Byte} : lookup op = none ↔ ∀ row ∈ opcodeTable, row.opcode ≠ op := by
  simp [lookup]

theorem lookup_isSome_iff {op : Byte} : (lookup op).isSome ↔ ∃ row ∈ opcodeTable, row.opcode = op := by
  simp [lookup]

/-- R73's list leaves out the thirteen opcode bytes of R67, and no other byte. -/
theorem unlistedOpcode_iff {op : Byte} : unlistedOpcode op ↔ ∀ row ∈ opcodeTable, row.opcode ≠ op := by
  have hlt : op.toNat < 256 := op.isLt
  simp only [unlistedOpcode, opcodeTable, List.forall_mem_cons, List.not_mem_nil, false_implies, implies_true, ne_eq,
    and_true, ← BitVec.toNat_inj, BitVec.ofNat_eq_ofNat, BitVec.toNat_ofNat]
  omega

theorem unlistedOpcode_iff_lookup {op : Byte} : unlistedOpcode op ↔ lookup op = none :=
  unlistedOpcode_iff.trans lookup_eq_none_iff.symm

/-- The numbers of the bytes that lookup finds are the opcodes of the table, in another order. -/
theorem listedBytes_perm : ((List.range 256).filter fun n => (lookup (BitVec.ofNat 8 n)).isSome).Perm
    (opcodeTable.map fun row => row.opcode.toNat) := by
  refine (List.perm_ext_iff_of_nodup (List.nodup_range.filter _) (by decide)).mpr fun n => ?_
  simp only [List.mem_filter, List.mem_range, lookup_isSome_iff, List.mem_map]
  constructor
  · rintro ⟨hn, row, hrow, hop⟩
    exact ⟨row, hrow, by rw [hop, BitVec.toNat_ofNat, Nat.mod_eq_of_lt hn]⟩
  · rintro ⟨row, hrow, rfl⟩
    exact ⟨row.opcode.isLt, row, hrow, by rw [BitVec.ofNat_toNat, BitVec.setWidth_eq]⟩

/-- R73: 243 bytes have no row, the 256 less the thirteen of the table. -/
theorem unlistedBytes_length : ((List.range 256).filter fun n => (lookup (BitVec.ofNat 8 n)).isNone).length = 243 := by
  have hlisted : ((List.range 256).filter fun n => (lookup (BitVec.ofNat 8 n)).isSome).length = 13 :=
    listedBytes_perm.length_eq
  have hsplit := List.length_eq_length_filter_add (l := List.range 256) fun n => (lookup (BitVec.ofNat 8 n)).isSome
  simp only [List.length_range, hlisted, Option.not_isSome] at hsplit
  omega

/-! ## A step whose fetch faults leaves all but the run state and the record -/

theorem step_unknown {s : State} (hrun : s.run = .running) (hpc : s.pc ≤ 255) (h : lookup (s.mem.read s.pc) = none) :
    step s = .next (s.faultedWith ⟨.unknownOpcodeError, s.pc, some (s.mem.read s.pc), (s.mem.read s.pc).toNat,
      .decode⟩) :=
  step_fetchFault hrun (State.fetch_unknown hpc h)

theorem step_operandPast {s : State} {row : OpcodeRow} (hrun : s.run = .running) (hpc : s.pc ≤ 255)
    (h : lookup (s.mem.read s.pc) = some row) (hpast : 255 < s.pc + row.operands) :
    step s = .next (s.faultedWith ⟨.addressError, s.pc, some (s.mem.read s.pc), 256, .operandFetch⟩) :=
  step_fetchFault hrun (State.fetch_past hpc h hpast)

/-! ## The obligations on the encoding -/

/-- Settles O7: R73's list and the table are complementary, and the step of an unlisted byte is its fetch fault. -/
theorem unknownOpcodesFaultPrecisely : Obligations.UnknownOpcodesFaultPrecisely := by
  unfold Obligations.UnknownOpcodesFaultPrecisely
  refine ⟨fun _ => unlistedOpcode_iff_lookup, unlistedBytes_length, ?_⟩
  rintro s _ hrun hpc rfl hun
  exact step_unknown hrun hpc (unlistedOpcode_iff_lookup.mp hun)

/-- Settles O8: by whether the declared operands lie in memory; where they do, the built instruction does not depend on
the undeclared bytes. -/
theorem operandFetchReadsDeclaredBytes : Obligations.OperandFetchReadsDeclaredBytes := by
  unfold Obligations.OperandFetchReadsDeclaredBytes
  intro s row hrun hpc hrow
  refine ⟨fun hfits b1 b2 hb1 hb2 => ?_, step_operandPast hrun hpc hrow⟩
  have hbuild : row.build b1 b2 = row.build (s.mem.read (s.pc + 1)) (s.mem.read (s.pc + 2)) :=
    build_ignores hrow _ _ _ _ hb1 fun h2 => hb2 h2.ge
  rw [hbuild]
  exact step_fetched hrun (State.fetch_fits hrow hfits)

end Sys2Proof.Machine

namespace Sys2Proof.Machine

/-! ## A step by where it stands -/

/-- R92, for one next state: whoever makes a transition is Running. -/
theorem step_ne_next {s : State} (t : State) (h : s.run ≠ .running) : step s ≠ .next t := by
  intro hstep
  obtain ⟨hrun, -⟩ := step_next hstep
  exact h hrun

theorem step_beyond {s : State} (hrun : s.run = .running) (h : 255 < s.pc) :
    step s = .next (s.faultedWith ⟨.addressError, s.pc, none, s.pc, .fetch⟩) :=
  step_fetchFault hrun (State.fetch_beyond h)

/-- An instruction without operands runs wherever its opcode byte stands, address 255 included. -/
theorem step_operandless {i : Instr} {s : State} (hi : i.operandBytes = []) (hrun : s.run = .running)
    (hpc : s.pc ≤ 255) (hop : s.mem.read s.pc = i.opcode) : step s = exec i s := by
  obtain ⟨row, hrow, hlen, hbuild⟩ := lookup_opcode i
  have hzero : row.operands = 0 := by rw [hlen, hi, List.length_nil]
  rw [← hop] at hrow
  have hignores : row.build (s.mem.read (s.pc + 1)) (s.mem.read (s.pc + 2)) = i :=
    (build_ignores hrow _ _ _ _ (by omega) (by omega)).trans hbuild
  have hfetch := State.fetch_fits hrow (by omega)
  rw [hignores] at hfetch
  exact step_fetched hrun hfetch

/-! ## The faults of one shape -/

/-- R71: where the row of `op` declares an operand past address 255, the step faults at its operand fetch. -/
theorem operandFetchFault_of_lookup {op : Byte} {row : OpcodeRow} {a : Nat} (h : lookup op = some row) (ha : a ≤ 255)
    (hpast : 255 < a + row.operands) : OperandFetchFault op a := by
  rintro s hrun rfl rfl
  exact step_operandPast hrun ha h hpast

/-- R69: the first register operand, where it is above 7, is the fault. -/
theorem registerIndexFault_head {i : Instr} {b : Byte} {bs : List Byte} (hi : i.registerOperands = b :: bs)
    (hb : 7 < b.toNat) : RegisterIndexFault i.opcode i b := by
  intro s
  refine exec_registerFault s ?_
  rw [hi, List.find?_cons_of_pos]
  rw [namesRegister_above hb, Bool.not_false]

/-! ## The obligations on the dispatcher -/

/-- Settles O12: HALT's completion is `setRun`, it has no operand to fetch, and Halted is not Running. -/
theorem haltStopsAtItsOwnAddress : Obligations.HaltStopsAtItsOwnAddress := by
  unfold Obligations.HaltStopsAtItsOwnAddress
  refine ⟨rfl, fun s => ?_, fun _ => step_operandless (i := .halt) rfl, fun s t hrun => ?_⟩
  · exact ⟨_, (Completes.halt s).exec_eq, rfl, rfl, fun _ => rfl, rfl, fun _ => rfl, rfl, rfl⟩
  · exact step_ne_next t (by rw [hrun]; decide)

/-- Settles O13: by its completion, whose frame is that of `writeReg` and `advance`, and by the faults of its two
operands. -/
theorem loadImmediateWritesTheByte : Obligations.LoadImmediateWritesTheByte := by
  unfold Obligations.LoadImmediateWritesTheByte
  refine ⟨fun _ _ => rfl, fun s r v => ?_, operandFetchFault_of_lookup rfl (by decide) (by decide),
    operandFetchFault_of_lookup rfl (by decide) (by decide), fun b1 v hb => registerIndexFault_head rfl hb⟩
  have hframe : RegsSameBut r s ((s.writeReg r v).advance 2) := fun i hne => by simp [hne]
  exact ⟨_, (Completes.loadImmediate s r v).exec_eq, by simp, hframe, rfl, rfl, fun _ => rfl, rfl, rfl, rfl⟩

/-- Settles O14: by its completion, whose frame is that of `emit` and `advance`, and by the faults of its one
operand. -/
theorem printRegisterEmitsTheByte : Obligations.PrintRegisterEmitsTheByte := by
  unfold Obligations.PrintRegisterEmitsTheByte
  refine ⟨fun _ => rfl, fun s r => ?_, operandFetchFault_of_lookup rfl (by decide) (by decide),
    fun b hb => registerIndexFault_head rfl hb⟩
  exact ⟨_, (Completes.printRegister s r).exec_eq, rfl, fun _ => rfl, rfl, rfl, fun _ => rfl, rfl, rfl⟩

/-- Settles O6: by the fetch beyond memory, and by the invariant's bound on `pc`. -/
theorem fetchOutsideMemoryFaults : Obligations.FetchOutsideMemoryFaults := by
  unfold Obligations.FetchOutsideMemoryFaults
  refine ⟨fun s hrun hpc => ?_, fun s hinv _ habove => ?_⟩
  · have hstep := step_beyond hrun (by omega)
    rwa [hpc] at hstep
  · have hrange := hinv.pcRange
    omega

/-- Settles O9: by the inversion lemma of `step`. -/
theorem noTransitionOutsideRunning : Obligations.NoTransitionOutsideRunning := by
  unfold Obligations.NoTransitionOutsideRunning
  exact fun _ t => step_ne_next t

end Sys2Proof.Machine

namespace Sys2Proof.Machine

/-! ## The ALU instructions -/

/-- R101: reducing modulo 256 is all that storing an exact result as a byte does to it. -/
theorem toNat_ofNat_mod_256 (n : Nat) : (BitVec.ofNat 8 (n % 256)).toNat = n % 256 := by
  rw [BitVec.toNat_ofNat]
  exact Nat.mod_mod n 256

theorem State.writeReg_advance_regsSameBut (s : State) (r : Fin 8) (v : Byte) (n : Nat) :
    RegsSameBut r s ((s.writeReg r v).advance n) := fun i hne => by
  rw [State.advance_readReg, State.readReg_writeReg, if_neg hne]

/-- R69, R131: the second register operand, where it is above 7 and the first names a register, is the fault. -/
theorem registerIndexFault_second {i : Instr} {ra : Fin 8} {b : Byte} {bs : List Byte}
    (hi : i.registerOperands = regByte ra :: b :: bs) (hb : 7 < b.toNat) : RegisterIndexFault i.opcode i b := by
  intro s
  refine exec_registerFault s ?_
  rw [hi, List.find?_cons_of_neg, List.find?_cons_of_pos]
  · rw [namesRegister_above hb, Bool.not_false]
  · rw [namesRegister_regByte, Bool.not_true]
    exact Bool.false_ne_true

/-- The rule shared by R99 and R100: a format-RR instruction that completes by writing `f` of its two registers, modulo
256, into the first has the rest of the frame and the faults from `writeReg`, `advance` and its operand bytes. -/
theorem aluRule_of_completes {mk : Byte → Byte → Instr} {op : Byte} {f : Nat → Nat → Nat}
    (hopcode : ∀ b1 b2, (mk b1 b2).opcode = op) (hbytes : ∀ b1 b2, (mk b1 b2).operandBytes = [b1, b2])
    (hregs : ∀ b1 b2, (mk b1 b2).registerOperands = [b1, b2])
    (hcompletes : ∀ (s : State) (ra rb : Fin 8), Completes (mk (regByte ra) (regByte rb)) s
      ((s.writeReg ra (BitVec.ofNat 8 (f (s.readReg ra).toNat (s.readReg rb).toNat % 256))).advance 2)) :
    AluRule mk op f := by
  obtain ⟨row, hrow, hlen, -⟩ := lookup_opcode (mk 0 0)
  rw [hopcode] at hrow
  have htwo : row.operands = 2 := by rw [hlen, hbytes]; rfl
  refine ⟨fun b1 b2 => ?_, fun s ra rb => ?_, operandFetchFault_of_lookup hrow (by decide) (by omega),
    operandFetchFault_of_lookup hrow (by decide) (by omega), fun b1 b2 hb => ?_, fun ra b2 hb => ?_⟩
  · rw [encode, hopcode, hbytes]
  · have hresult (v : Byte) : ((s.writeReg ra v).advance 2).readReg ra = v := by
      rw [State.advance_readReg, State.readReg_writeReg, if_pos rfl]
    exact ⟨_, (hcompletes s ra rb).exec_eq, by rw [hresult, toNat_ofNat_mod_256],
      s.writeReg_advance_regsSameBut ra _ 2, rfl, rfl, fun _ => rfl, rfl, rfl, rfl⟩
  · exact hopcode b1 b2 ▸ registerIndexFault_head (hregs b1 b2) hb
  · exact hopcode (regByte ra) b2 ▸ registerIndexFault_second (hregs (regByte ra) b2) hb

/-! ## Which kinds of fault a step raises -/

/-- R31: a completed instruction leaves the run state, or it is HALT. -/
theorem Completes.run_cases {i : Instr} {s t : State} (h : Completes i s t) :
    t.run = s.run ∨ i = .halt ∧ t.run = .halted := by
  cases h with
  | halt => exact .inr ⟨rfl, rfl⟩
  | _ => exact .inl rfl

/-- R129: an instruction raises RegisterIndexError or AddressError. -/
theorem Faults.kind_cases {i : Instr} {s : State} {e : Raised} (h : Faults i s e) :
    e.kind = .registerIndexError ∨ e.kind = .addressError := by
  cases h with
  | register => exact .inl rfl
  | _ => exact .inr rfl

/-- R71, R82, R83: a fetch raises AddressError or UnknownOpcodeError. -/
theorem State.fetch_error_kind {s : State} {f : FetchFault} (h : s.fetch = .error f) :
    f.raised.kind = .addressError ∨ f.raised.kind = .unknownOpcodeError := by
  obtain ⟨-, hf⟩ | ⟨-, -, hf⟩ | ⟨_, -, -, -, hf⟩ | ⟨_, -, -, hf⟩ := s.fetch_cases <;> rw [hf] at h <;> cases h
  · exact .inl rfl
  · exact .inr rfl
  · exact .inl rfl

/-- A step that ends Faulted took the fault of its fetch or of the instruction it fetched. -/
theorem step_faulted {s t : State} (h : step s = .next t) (hfaulted : t.run = .faulted) :
    ∃ op e, t = s.takeFault op e ∧
      ((∃ f, s.fetch = .error f ∧ e = f.raised) ∨ ∃ i, s.fetch = .ok i ∧ Faults i s e) := by
  obtain ⟨hrun, ⟨f, hfetch, rfl⟩ | ⟨i, -, hc⟩ | ⟨i, e, hfetch, he, rfl⟩⟩ := step_next h
  · exact ⟨_, _, rfl, .inl ⟨f, hfetch, rfl⟩⟩
  · obtain hsame | ⟨-, hhalted⟩ := hc.run_cases
    · rw [hsame, hrun] at hfaulted
      cases hfaulted
    · rw [hhalted] at hfaulted
      cases hfaulted
  · exact ⟨_, e, rfl, .inr ⟨i, hfetch, he⟩⟩

/-! ## The obligations on the ALU -/

/-- Settles O15: both instructions complete as `aluRule_of_completes` asks, ADD with the sum and MULTIPLY with the
product. -/
theorem addAndMultiplyWrapInPlace : Obligations.AddAndMultiplyWrapInPlace := by
  unfold Obligations.AddAndMultiplyWrapInPlace
  exact ⟨aluRule_of_completes (fun _ _ => rfl) (fun _ _ => rfl) (fun _ _ => rfl) Completes.add,
    aluRule_of_completes (fun _ _ => rfl) (fun _ _ => rfl) (fun _ _ => rfl) Completes.multiply⟩

/-- Settles O17: by the ALU's answer to any other select, and because neither a fetch nor an instruction raises that
kind. -/
theorem unsupportedOperationOnlyDirectly : Obligations.UnsupportedOperationOnlyDirectly := by
  unfold Obligations.UnsupportedOperationOnlyDirectly
  refine ⟨fun op a b hadd hmultiply => alu_unsupported a b hadd hmultiply, fun s t r hstep hfaulted hrecord => ?_⟩
  obtain ⟨op, e, rfl, hraised⟩ := step_faulted hstep hfaulted
  rw [State.takeFault_fault] at hrecord
  obtain rfl := Option.some.inj hrecord
  change e.kind ≠ .unsupportedOperationError
  obtain ⟨f, hfetch, rfl⟩ | ⟨i, -, hfaults⟩ := hraised
  · obtain hkind | hkind := State.fetch_error_kind hfetch <;> rw [hkind] <;> decide
  · obtain hkind | hkind := hfaults.kind_cases <;> rw [hkind] <;> decide

/-- Settles O16: by the ALU's two equations, whose results a byte holds exactly. -/
theorem aluIsExactModulo256 : Obligations.AluIsExactModulo256 := by
  unfold Obligations.AluIsExactModulo256
  exact fun a b => ⟨_, _, alu_add a b, toNat_ofNat_mod_256 _, alu_multiply a b, toNat_ofNat_mod_256 _⟩

end Sys2Proof.Machine

namespace Sys2Proof.Machine

/-! ## The move that PUSH and CALL share -/

/-- The state after SP is decremented and a byte stored at the new SP (R109, R111), where SP is not 0. -/
def State.pushByte (s : State) (v : Byte) : State :=
  (s.writeReg spReg (s.sp - 1)).storeByte (s.sp - 1).toNat v

section
variable {s : State} (v : Byte)

theorem State.pushByte_readReg (r : Fin 8) :
    (s.pushByte v).readReg r = if r = spReg then s.sp - 1 else s.readReg r := by
  rw [State.pushByte, State.storeByte_readReg, State.readReg_writeReg]

@[simp] theorem State.pushByte_sp : (s.pushByte v).sp = s.sp - 1 := by
  rw [State.pushByte, State.storeByte_sp, State.sp_writeReg_sp]

theorem State.pushByte_regsSameBut : RegsSameBut spReg s (s.pushByte v) := fun r hne => by
  rw [State.pushByte_readReg, if_neg hne]

theorem State.pushByte_memorySameBut : MemorySameBut (s.sp - 1).toNat s (s.pushByte v) :=
  State.storeByte_memorySameBut (s.writeReg spReg (s.sp - 1)) (s.sp - 1).toNat v

/-- The byte stored is the one at the new SP. -/
theorem State.pushByte_read_sp (hwf : s.mem.wf = true) : (s.pushByte v).mem.read (s.sp - 1).toNat = v := by
  rw [State.pushByte, State.storeByte_mem, State.writeReg_mem, Memory.read_write _ hwf, if_pos rfl]

end

/-! ## The stack instructions by their completion -/

section
variable {s : State}

/-- R109: PUSH stores its register as it reads after the decrement. -/
theorem exec_push (r : Fin 8) (h : s.sp.toNat ≠ 0) : exec (.push (regByte r)) s =
    .next ((s.pushByte (if r = spReg then s.sp - 1 else s.readReg r)).advance 1) := by
  rw [(Completes.push s r h).exec_eq, State.readReg_writeReg, State.pushByte]

/-- R111: CALL stores the return address and jumps to its register as it reads after the decrement. -/
theorem exec_call (r : Fin 8) (h : s.sp.toNat ≠ 0) (ha : s.pc + 2 ≤ 255) : exec (.call (regByte r)) s =
    .next ((s.pushByte (BitVec.ofNat 8 (s.pc + 2))).setPc (if r = spReg then s.sp - 1 else s.readReg r).toNat) := by
  rw [(Completes.call s r h ha).exec_eq, State.readReg_writeReg, State.pushByte]

/-- R110 for a register other than `r7`: SP is as it was when the popped byte is written. -/
theorem exec_pop_of_ne {r : Fin 8} (hr : r ≠ spReg) (h : s.sp.toNat < 255) : exec (.pop (regByte r)) s =
    .next (((s.writeReg r (s.mem.read s.sp.toNat)).writeReg spReg (s.sp + 1)).advance 1) := by
  have hsp (v : Byte) : (s.writeReg r v).sp = s.sp := by rw [State.sp_writeReg, if_neg hr.symm]
  have hbound : ¬ (popR7AtTop r s ∧ Config.popR7AtTopFaults = true) := fun hb => not_popR7AtTop_of_ne hr hb.1
  rw [(Completes.pop s r hbound (by rwa [hsp])).exec_eq, hsp]

/-- R112: the return address of a CALL at 254 or above is past the memory. -/
theorem exec_call_returnAddressFault (r : Fin 8) (h : s.sp.toNat ≠ 0) (ha : 255 < s.pc + 2) :
    exec (.call (regByte r)) s =
      .next (s.faultedWith ⟨.addressError, s.pc, some 0x50, (s.pc : Int) + 2, .callReturnAddress⟩) :=
  (Faults.callReturn s r h ha).exec_eq

end

/-! ## A pop after a push -/

/-- SP after a decrement is a value from which an increment does not fault. -/
theorem toNat_sub_one_lt {b : Byte} (h : b.toNat ≠ 0) : (b - 1).toNat < 255 := by
  rw [toNat_sub_one h]
  omega

/-- R115 for a push and a pop: the value arrives in the other register and SP is as it was. -/
theorem exec_push_pop {s : State} {r r' : Fin 8} (hwf : s.mem.wf = true) (hsp : s.sp.toNat ≠ 0) (hr : r ≠ spReg)
    (hr' : r' ≠ spReg) : ∃ t u, exec (.push (regByte r)) s = .next t ∧ exec (.pop (regByte r')) t = .next u ∧
      u.readReg r' = s.readReg r ∧ u.sp = s.sp := by
  have hpush := exec_push r hsp
  rw [if_neg hr] at hpush
  refine ⟨_, _, hpush, exec_pop_of_ne hr' ?_, ?_, ?_⟩
  · rw [State.advance_sp, State.pushByte_sp]
    exact toNat_sub_one_lt hsp
  · rw [State.advance_readReg, State.readReg_writeReg, if_neg hr', State.readReg_writeReg, if_pos rfl, State.advance_mem,
      State.advance_sp, State.pushByte_sp, State.pushByte_read_sp _ hwf]
  · rw [State.advance_sp, State.sp_writeReg_sp, State.advance_sp, State.pushByte_sp, BitVec.sub_add_cancel]

/-- A return address inside the memory is stored exactly. -/
theorem toNat_ofNat_returnAddress {a : Nat} (h : a + 2 ≤ 255) : (BitVec.ofNat 8 (a + 2)).toNat = a + 2 := by
  rw [BitVec.toNat_ofNat, Nat.mod_eq_of_lt (by omega)]

/-! ## The obligations on the stack and calls -/

/-- Settles O18: PUSH completes as `State.pushByte`, whose read-back and frame are lemmas; SP = 0 is its fault. -/
theorem pushDecrementsThenStores : Obligations.PushDecrementsThenStores := by
  unfold Obligations.PushDecrementsThenStores
  refine ⟨fun _ => rfl, fun s r hwf hsp => ⟨_, exec_push r hsp, ?_⟩, fun s r hsp => (Faults.push s r hsp).exec_eq,
    operandFetchFault_of_lookup rfl (by decide) (by decide), fun b hb => registerIndexFault_head rfl hb⟩
  rw [State.advance_sp, State.advance_mem, State.pushByte_sp, ← toNat_sub_one hsp]
  generalize (if r = spReg then s.sp - 1 else s.readReg r) = v
  exact ⟨rfl, State.pushByte_read_sp v hwf, State.pushByte_memorySameBut v, State.pushByte_regsSameBut v, rfl, rfl, rfl,
    rfl, rfl⟩

/-- Settles O20: CALL completes as `State.pushByte` of the return address and a jump; the bound on SP is tested first,
then the one on the return address. -/
theorem callStoresReturnAddressAndJumps : Obligations.CallStoresReturnAddressAndJumps := by
  unfold Obligations.CallStoresReturnAddressAndJumps
  refine ⟨fun _ => rfl, fun s r hwf hsp hpc => ⟨_, exec_call r hsp hpc, ?_⟩,
    fun s r hsp => (Faults.callSp s r hsp).exec_eq, fun s r hsp hpc => ?_,
    operandFetchFault_of_lookup rfl (by decide) (by decide), fun b hb => registerIndexFault_head rfl hb⟩
  · rw [State.setPc_sp, State.setPc_mem, State.pushByte_sp, ← toNat_sub_one hsp, State.pushByte_read_sp _ hwf]
    exact ⟨rfl, toNat_ofNat_returnAddress hpc, State.pushByte_memorySameBut (BitVec.ofNat 8 (s.pc + 2)), rfl,
      State.pushByte_regsSameBut (BitVec.ofNat 8 (s.pc + 2)), rfl, rfl, rfl, rfl⟩
  · have hfault := exec_call_returnAddressFault r hsp (by omega)
    rw [hpc] at hfault
    exact hfault

/-- Settles O21: by RETURN's completion and its one fault; it has no operand to fetch. -/
theorem returnJumpsToThePoppedByte : Obligations.ReturnJumpsToThePoppedByte := by
  unfold Obligations.ReturnJumpsToThePoppedByte
  refine ⟨rfl, fun s hsp => ?_, fun s hsp => (Faults.ret s hsp).exec_eq, fun _ => step_operandless (i := .ret) rfl⟩
  have hframe : RegsSameBut spReg s ((s.writeReg spReg (s.sp + 1)).setPc (s.mem.read s.sp.toNat).toNat) :=
    fun i hne => by rw [State.setPc_readReg, State.readReg_writeReg, if_neg hne]
  refine ⟨_, (Completes.ret s hsp).exec_eq, rfl, ?_, hframe, rfl, fun _ => rfl, rfl, rfl, rfl⟩
  rw [State.setPc_sp, State.sp_writeReg_sp, toNat_add_one hsp]

/-- Settles O22: the byte that `State.pushByte` stored is the one at SP, so POP and RETURN find it there, and their
increment undoes its decrement. -/
theorem stackRoundTrips : Obligations.StackRoundTrips := by
  unfold Obligations.StackRoundTrips
  refine ⟨fun s r r' v hwf hsp hr hr' _ => ?_, fun s r hwf hsp hpc => ⟨_, exec_call r hsp hpc, fun u husp hubyte => ?_⟩⟩
  · have hload : ((s.writeReg r v).advance 2).sp = s.sp := by rw [State.advance_sp, State.sp_writeReg, if_neg hr.symm]
    obtain ⟨t, u, hpush, hpop, hvalue, hrestored⟩ :=
      exec_push_pop (s := (s.writeReg r v).advance 2) hwf (hload ▸ hsp) hr hr'
    rw [State.advance_readReg, State.readReg_writeReg, if_pos rfl] at hvalue
    exact ⟨_, t, u, (Completes.loadImmediate s r v).exec_eq, hpush, hpop, hvalue, hrestored.trans hload⟩
  · rw [State.setPc_sp, State.pushByte_sp] at husp hubyte
    rw [State.setPc_mem, State.pushByte_read_sp _ hwf] at hubyte
    refine ⟨_, (Completes.ret u (husp ▸ toNat_sub_one_lt hsp)).exec_eq, ?_, ?_⟩
    · rw [State.setPc_pc, hubyte, toNat_ofNat_returnAddress hpc]
    · rw [State.setPc_sp, State.sp_writeReg_sp, husp, BitVec.sub_add_cancel]

end Sys2Proof.Machine

namespace Sys2Proof.Machine

/-! ## The branches -/

/-- The rule shared by R119 to R121: a format-R instruction that completes by setting `pc`, to the register's value when
`taken` and else past the instruction, has the rest of the frame from `setPc` and the faults from its operand byte. -/
theorem branchRule_of_completes {mk : Byte → Instr} {op : Byte} {taken : State → Bool}
    (hopcode : ∀ b, (mk b).opcode = op) (hbytes : ∀ b, (mk b).operandBytes = [b])
    (hregs : ∀ b, (mk b).registerOperands = [b])
    (hcompletes : ∀ (s : State) (r : Fin 8), Completes (mk (regByte r)) s
      (s.setPc (if taken s then (s.readReg r).toNat else s.pc + 2))) :
    BranchRule mk op taken := by
  obtain ⟨row, hrow, hlen, -⟩ := lookup_opcode (mk 0)
  rw [hopcode] at hrow
  have hone : row.operands = 1 := by rw [hlen, hbytes]; rfl
  refine ⟨fun b => ?_, fun s r => ?_, operandFetchFault_of_lookup hrow (by decide) (by omega), fun b hb => ?_⟩
  · rw [encode, hopcode, hbytes]
  · exact ⟨_, (hcompletes s r).exec_eq, fun htaken => if_pos htaken, fun hnot => if_neg (Bool.not_eq_true _ ▸ hnot),
      fun _ => rfl, rfl, fun _ => rfl, rfl, rfl, rfl⟩
  · exact hopcode b ▸ registerIndexFault_head (hregs b) hb

/-- Settles O25: JUMP completes as `branchRule_of_completes` asks of a branch that is always taken. -/
theorem jumpGoesToTheRegister : Obligations.JumpGoesToTheRegister := by
  unfold Obligations.JumpGoesToTheRegister
  exact branchRule_of_completes (fun _ => rfl) (fun _ => rfl) (fun _ => rfl) Completes.jump

end Sys2Proof.Machine

namespace Sys2Proof

/-! ## The decoder and the encoder -/

/-- The decoder on an opcode byte and just the operand bytes its row declares, whatever follows them. -/
theorem decode_declared {op : Byte} {row : OpcodeRow} {operands : List Byte} (h : lookup op = some row)
    (hlen : operands.length = row.operands) (rest : List Byte) :
    decode (op :: (operands ++ rest)) = .ok (row.build (operands.getD 0 0) (operands.getD 1 0), rest) := by
  obtain ⟨-, -, -, hle⟩ := build_of_lookup h 0 0
  match operands with
  | [] => simp [decode, h, ← hlen]
  | [b1] => simp [decode, h, ← hlen]
  | [b1, b2] => simp [decode, h, ← hlen]
  | _ :: _ :: _ :: _ => simp at hlen; omega

/-- The inversion lemma of `decode`: the bytes are those of a row, with the operands it declares, and the rest. -/
theorem decode_ok {bytes rest : List Byte} {i : Instr} (h : decode bytes = .ok (i, rest)) :
    ∃ op row b1 b2, lookup op = some row ∧ i = row.build b1 b2 ∧
      bytes = op :: ([b1, b2].take row.operands ++ rest) := by
  match bytes with
  | [] => cases h
  | op :: tail =>
    rw [decode] at h
    split at h
    · cases h
    · next row hrow =>
      split at h <;> cases h
      · next hn => exact ⟨op, row, 0, 0, hrow, rfl, by rw [hn]; rfl⟩
      · next b1 hn => exact ⟨op, row, b1, 0, hrow, rfl, by rw [hn]; rfl⟩
      · next b1 b2 hn => exact ⟨op, row, b1, b2, hrow, rfl, by rw [hn]; rfl⟩

/-- R63, R64: decoding undoes encoding. -/
theorem decode_encode (i : Instr) (rest : List Byte) : decode (encode i ++ rest) = .ok (i, rest) := by
  obtain ⟨row, hrow, hlen, hbuild⟩ := lookup_opcode i
  have hdecode := decode_declared hrow hlen.symm rest
  rwa [hbuild] at hdecode

/-- The encoding of what a row builds is its opcode byte and the operand bytes it declares. -/
theorem encode_build {op : Byte} {row : OpcodeRow} (h : lookup op = some row) (b1 b2 : Byte) :
    encode (row.build b1 b2) = op :: [b1, b2].take row.operands := by
  obtain ⟨hop, hbytes, -⟩ := build_of_lookup h b1 b2
  rw [encode, hop, hbytes]

/-- The family `EncodedLength` covers every instruction. -/
theorem encodedLength (i : Instr) : Laws.EncodedLength.Statement i := by
  cases i with
  | halt => exact Laws.EncodedLength.halt
  | loadImmediate reg imm => exact Laws.EncodedLength.loadImmediate reg imm
  | printRegister reg => exact Laws.EncodedLength.printRegister reg
  | multiply regA regB => exact Laws.EncodedLength.multiply regA regB
  | add regA regB => exact Laws.EncodedLength.add regA regB
  | push reg => exact Laws.EncodedLength.push reg
  | pop reg => exact Laws.EncodedLength.pop reg
  | call reg => exact Laws.EncodedLength.call reg
  | ret => exact Laws.EncodedLength.ret
  | compare regA regB => exact Laws.EncodedLength.compare regA regB
  | jump reg => exact Laws.EncodedLength.jump reg
  | jumpIfEqual reg => exact Laws.EncodedLength.jumpIfEqual reg
  | jumpIfNotEqual reg => exact Laws.EncodedLength.jumpIfNotEqual reg

/-- R65 for a row that lookup finds: it is the row of the instruction it builds. -/
theorem operands_of_lookup {op : Byte} {row : OpcodeRow} (h : lookup op = some row) :
    row.operands = op.toNat / 64 := by
  obtain ⟨hop, -⟩ := build_of_lookup h 0 0
  obtain ⟨-, hoperands⟩ := encodedLength (row.build 0 0)
  rw [hop, h] at hoperands
  exact Option.some.inj hoperands

/-! ## The obligations on the encoding -/

/-- Settles O2: one direction is `decode_encode`; the other takes the bytes apart by the inversion lemma of `decode`. -/
theorem decodeAndEncodeAgree : Obligations.DecodeAndEncodeAgree := by
  unfold Obligations.DecodeAndEncodeAgree
  refine ⟨decode_encode, fun bytes rest i h => ?_⟩
  obtain ⟨op, row, b1, b2, hrow, rfl, rfl⟩ := decode_ok h
  rw [encode_build hrow, List.cons_append]

/-- Settles O3: by the lengths of the encodings, one instruction at a time, and because every row builds one. -/
theorem opcodeHighBitsGiveTheOperandCount : Obligations.OpcodeHighBitsGiveTheOperandCount := by
  unfold Obligations.OpcodeHighBitsGiveTheOperandCount
  exact ⟨fun _ _ => operands_of_lookup, fun i => (encodedLength i).1⟩

/-- Settles O1: each word is the encoding of the instruction it decodes to. -/
theorem opcodeMapWordsDecode : Obligations.OpcodeMapWordsDecode := by
  unfold Obligations.OpcodeMapWordsDecode
  exact fun b1 b2 => ⟨decode_encode .halt [], decode_encode (.loadImmediate b1 b2) [], decode_encode (.printRegister b1) [],
    decode_encode (.multiply b1 b2) [], decode_encode (.add b1 b2) [], decode_encode (.push b1) [],
    decode_encode (.pop b1) [], decode_encode (.call b1) [], decode_encode .ret [], decode_encode (.compare b1 b2) [],
    decode_encode (.jump b1) [], decode_encode (.jumpIfEqual b1) [], decode_encode (.jumpIfNotEqual b1) []⟩

end Sys2Proof

namespace Sys2Proof.Machine

/-! ## The bytes at `pc` -/

/-- The bytes at `a` are those of the cells from `a` on, at most three of them and none past address 255. -/
theorem bytesAt_eq (m : Memory) (a : Nat) :
    bytesAt m a = (List.range (min maxLength (256 - a))).map fun k => m.read (a + k) := by
  have hcells : bytesAt m a = [a, a + 1, a + 2].filterMap fun k => if k < 256 then some (m.read k) else none := rfl
  rw [hcells]
  obtain h | rfl | rfl | h : a ≤ 253 ∨ a = 254 ∨ a = 255 ∨ 256 ≤ a := by omega
  · have hlen : min maxLength (256 - a) = 3 := by simp only [maxLength]; omega
    have h0 : a < 256 := by omega
    have h1 : a + 1 < 256 := by omega
    have h2 : a + 2 < 256 := by omega
    simp [hlen, h0, h1, h2, List.range_succ]
  · rfl
  · rfl
  · have hlen : 256 - a = 0 := by omega
    have h0 : ¬ a < 256 := by omega
    have h1 : ¬ a + 1 < 256 := by omega
    have h2 : ¬ a + 2 < 256 := by omega
    simp [hlen, h0, h1, h2]

theorem bytesAt_getElem? {m : Memory} {a k : Nat} {v : Byte} (h : (bytesAt m a)[k]? = some v) :
    a + k ≤ 255 ∧ v = m.read (a + k) := by
  rw [bytesAt_eq, List.getElem?_map, Option.map_eq_some_iff] at h
  obtain ⟨j, hj, rfl⟩ := h
  obtain ⟨hk, rfl⟩ := List.getElem?_eq_some_iff.mp hj
  rw [List.length_range] at hk
  rw [List.getElem_range]
  exact ⟨by omega, rfl⟩

/-- Settles O5: the decoded bytes are the opcode byte at `pc` and the operands its row declares, in memory, which is what
the operand fetch reads. -/
theorem stepRunsTheDecodedInstruction : Obligations.StepRunsTheDecodedInstruction := by
  unfold Obligations.StepRunsTheDecodedInstruction
  intro s i rest hrun hdecode
  obtain ⟨op, row, b1, b2, hrow, rfl, hbytes⟩ := decode_ok hdecode
  have hbyte {k : Nat} {v : Byte} (hk : (op :: ([b1, b2].take row.operands ++ rest))[k]? = some v) :
      s.pc + k ≤ 255 ∧ v = s.mem.read (s.pc + k) := bytesAt_getElem? (hbytes ▸ hk)
  obtain ⟨hpc, rfl⟩ := hbyte (k := 0) rfl
  obtain ⟨hfits, -⟩ := operandFetchReadsDeclaredBytes s row hrun hpc hrow
  obtain ⟨-, -, -, hle⟩ := build_of_lookup hrow b1 b2
  obtain hn | hn | hn : row.operands = 0 ∨ row.operands = 1 ∨ row.operands = 2 := by omega
  · exact hfits (by omega) b1 b2 (by omega) (by omega)
  · obtain ⟨h1, hb1⟩ := hbyte (k := 1) (v := b1) (by rw [hn]; rfl)
    exact hfits (by omega) b1 b2 (fun _ => hb1) (by omega)
  · obtain ⟨-, hb1⟩ := hbyte (k := 1) (v := b1) (by rw [hn]; rfl)
    obtain ⟨h2, hb2⟩ := hbyte (k := 2) (v := b2) (by rw [hn]; rfl)
    exact hfits (by omega) b1 b2 (fun _ => hb1) (fun _ => hb2)

end Sys2Proof.Machine

namespace Sys2Proof.Machine

/-! ## COMPARE's flags -/

/-- R117, R118: each flag of COMPARE's byte says one case of the unsigned order; here, that the two are equal. -/
theorem flagE_compareFlags (u : BitVec 5) (p q : Byte) : flagE (u ++ compareFlags p q) = true ↔ p = q := by
  rw [flagE_append]
  obtain ⟨heq, hf⟩ | ⟨-, hne, hf⟩ | ⟨-, hne, hf⟩ := compareFlags_cases p q <;> rw [hf]
  · exact iff_of_true rfl heq
  · exact iff_of_false (by decide) hne
  · exact iff_of_false (by decide) hne

theorem flagG_compareFlags (u : BitVec 5) (p q : Byte) :
    flagG (u ++ compareFlags p q) = true ↔ q.toNat < p.toNat := by
  rw [flagG_append]
  obtain ⟨rfl, hf⟩ | ⟨hlt, -, hf⟩ | ⟨hlt, -, hf⟩ := compareFlags_cases p q <;> rw [hf]
  · exact iff_of_false (by decide) (Nat.lt_irrefl _)
  · exact iff_of_true rfl hlt
  · exact iff_of_false (by decide) (Nat.lt_asymm hlt)

theorem flagL_compareFlags (u : BitVec 5) (p q : Byte) :
    flagL (u ++ compareFlags p q) = true ↔ p.toNat < q.toNat := by
  rw [flagL_append]
  obtain ⟨rfl, hf⟩ | ⟨hlt, -, hf⟩ | ⟨hlt, -, hf⟩ := compareFlags_cases p q <;> rw [hf]
  · exact iff_of_false (by decide) (Nat.lt_irrefl _)
  · exact iff_of_false (by decide) (Nat.lt_asymm hlt)
  · exact iff_of_true rfl hlt

/-- R43, R118: whatever is compared, exactly one flag is set. -/
theorem oneFlagSet_compareFlags (u : BitVec 5) (p q : Byte) : OneFlagSet (u ++ compareFlags p q) := by
  simp only [OneFlagSet, flagE_append, flagG_append, flagL_append]
  obtain ⟨-, hf⟩ | ⟨-, -, hf⟩ | ⟨-, -, hf⟩ := compareFlags_cases p q <;> rw [hf] <;> decide

/-! ## Flags over runs -/

/-- R43's set of `FL` values: no unused bit, and at most one flag. -/
def SmallFlags (fl : Byte) : Prop := fl = 0x00 ∨ fl = 0x01 ∨ fl = 0x02 ∨ fl = 0x04

theorem SmallFlags.flagsUnused_eq {fl : Byte} (h : SmallFlags fl) : flagsUnused fl = 0 := by
  obtain rfl | rfl | rfl | rfl := h <;> rfl

theorem smallFlags_compareFlags (p q : Byte) : SmallFlags ((0 : BitVec 5) ++ compareFlags p q) := by
  obtain ⟨-, hf⟩ | ⟨-, -, hf⟩ | ⟨-, -, hf⟩ := compareFlags_cases p q <;> rw [hf]
  · exact .inr (.inl rfl)
  · exact .inr (.inr (.inl rfl))
  · exact .inr (.inr (.inr rfl))

/-- What every step, and so every run, keeps of `FL` (R43). -/
def FlagsKept (s t : State) : Prop :=
  flagsUnused t.FL = flagsUnused s.FL ∧ (SmallFlags s.FL → SmallFlags t.FL) ∧ (OneFlagSet s.FL → OneFlagSet t.FL)

theorem FlagsKept.of_eq {s t : State} (h : t.FL = s.FL) : FlagsKept s t := by
  rw [FlagsKept, h]
  exact ⟨rfl, id, id⟩

theorem FlagsKept.trans {s u t : State} (hsu : FlagsKept s u) (hut : FlagsKept u t) : FlagsKept s t := by
  obtain ⟨hunused, hsmall, hone⟩ := hsu
  obtain ⟨hunused', hsmall', hone'⟩ := hut
  exact ⟨hunused'.trans hunused, hsmall' ∘ hsmall, hone' ∘ hone⟩

theorem FlagsKept.of_compareFlags {s t : State} {p q : Byte}
    (h : t.FL = (flagsUnused s.FL ++ compareFlags p q : BitVec 8)) : FlagsKept s t := by
  rw [FlagsKept, h]
  refine ⟨flagsUnused_append _ _, fun hsmall => ?_, fun _ => oneFlagSet_compareFlags _ _ _⟩
  rw [hsmall.flagsUnused_eq]
  exact smallFlags_compareFlags p q

theorem step_flagsKept {s t : State} (h : step s = .next t) : FlagsKept s t := by
  obtain ⟨-, ⟨f, -, rfl⟩ | ⟨i, -, hc⟩ | ⟨i, e, -, -, rfl⟩⟩ := step_next h
  · exact .of_eq rfl
  · obtain hFL | ⟨ra, rb, -, hFL⟩ := hc.FL_cases
    · exact .of_eq hFL
    · exact .of_compareFlags hFL
  · exact .of_eq rfl

/-- Settles O32: every step keeps `FL` well shaped, since only COMPARE writes it, and so every run does. -/
theorem flagsStayWellShapedOverRuns : Obligations.FlagsStayWellShapedOverRuns := by
  unfold Obligations.FlagsStayWellShapedOverRuns
  refine ⟨fun n s t hrun => ?_, fun s t ra rb hexec => ?_⟩
  · exact run_induction (P := FlagsKept) (fun _ => .of_eq rfl) (fun _ _ _ => .trans) (fun _ _ => step_flagsKept) hrun
  · rw [(Completes.compare s ra rb).exec_eq] at hexec
    cases hexec
    exact oneFlagSet_compareFlags _ _ _

/-- Settles O24: COMPARE completes as `setFlags` and `advance`; its flags are those of `compareFlags`. -/
theorem compareSetsExactlyOneFlag : Obligations.CompareSetsExactlyOneFlag := by
  unfold Obligations.CompareSetsExactlyOneFlag
  refine ⟨fun _ _ => rfl, fun s ra rb => ⟨_, (Completes.compare s ra rb).exec_eq, ?_⟩,
    operandFetchFault_of_lookup rfl (by decide) (by decide), operandFetchFault_of_lookup rfl (by decide) (by decide),
    fun _ _ hb => registerIndexFault_head rfl hb, fun _ _ hb => registerIndexFault_second rfl hb⟩
  rw [State.advance_FL, State.setFlags_FL]
  exact ⟨flagE_compareFlags _ _ _, flagG_compareFlags _ _ _, flagL_compareFlags _ _ _, oneFlagSet_compareFlags _ _ _,
    flagsUnused_append _ _, fun _ => rfl, rfl, fun _ => rfl, rfl, rfl, rfl⟩

/-- Settles O26: both jumps complete as `branchRule_of_completes` asks, taken on opposite values of the Equal bit. -/
theorem conditionalJumpsTestOnlyEqual : Obligations.ConditionalJumpsTestOnlyEqual := by
  unfold Obligations.ConditionalJumpsTestOnlyEqual
  refine ⟨branchRule_of_completes (fun _ => rfl) (fun _ => rfl) (fun _ => rfl) Completes.jumpIfEqual,
    branchRule_of_completes (fun _ => rfl) (fun _ => rfl) (fun _ => rfl) fun s r => ?_⟩
  have hcompletes := Completes.jumpIfNotEqual s r
  cases hE : flagE s.FL <;> rw [hE] at hcompletes <;> exact hcompletes

end Sys2Proof.Machine

namespace Sys2Proof.Machine

/-! ## What a completed instruction changes -/

section
variable {i : Instr} {s t : State}

/-- R32: no completed instruction touches the fault record. -/
theorem Completes.fault_eq (h : Completes i s t) : t.fault = s.fault := by
  cases h <;> rfl

/-- R49, R62: a completed instruction leaves memory, or it is a PUSH or CALL, which stores one byte below SP. -/
theorem Completes.mem_cases (h : Completes i s t) :
    t.mem = s.mem ∨ ∃ v b, (i = .push b ∨ i = .call b) ∧ s.sp.toNat ≠ 0 ∧ t.mem = s.mem.write (s.sp - 1).toNat v := by
  cases h with
  | push _ r hsp => exact .inr ⟨_, _, .inl rfl, hsp, rfl⟩
  | call _ r hsp => exact .inr ⟨_, _, .inr rfl, hsp, rfl⟩
  | _ => exact .inl rfl

/-- R84: a completed instruction that is neither PC-setting nor HALT leaves `pc` just past itself. -/
theorem Completes.pc_generic (h : Completes i s t) (hpcSetting : i.pcSetting = false) (hhalt : i ≠ .halt) :
    t.pc = s.pc + (encode i).length := by
  cases h with
  | halt => exact absurd rfl hhalt
  | call | ret | jump | jumpIfEqual | jumpIfNotEqual => cases hpcSetting
  | _ => rfl

/-- R25: where the instruction lies in memory, whole, its completion leaves `pc` in 0..256. -/
theorem Completes.pc_le (h : Completes i s t) (hfits : s.pc + i.operandBytes.length ≤ 255) : t.pc ≤ 256 := by
  have hbyte (b : Byte) : b.toNat ≤ 256 := Nat.le_of_lt b.isLt
  cases h with
  | halt => exact Nat.le_succ_of_le hfits
  | jump _ r => exact hbyte _
  | jumpIfEqual _ r =>
    rw [State.setPc_pc]
    split
    · exact hbyte _
    · exact Nat.succ_le_succ hfits
  | jumpIfNotEqual _ r =>
    rw [State.setPc_pc]
    split
    · exact Nat.succ_le_succ hfits
    · exact hbyte _
  | call _ r => exact hbyte _
  | ret => exact hbyte _
  | _ => exact Nat.succ_le_succ hfits

/-- Writing one register changes no other. -/
theorem State.eq_of_readReg_writeReg_ne {r r' : Fin 8} {v : Byte} (h : (s.writeReg r v).readReg r' ≠ s.readReg r') :
    r' = r := by
  by_contra hne
  rw [State.readReg_writeReg, if_neg hne] at h
  exact h rfl

/-- R23: the general registers a completed instruction changes. -/
theorem Completes.mayWrite (h : Completes i s t) {r : Fin 8} (hr : t.readReg r ≠ s.readReg r) : i.mayWrite r := by
  cases h with
  | loadImmediate | multiply | add => exact congrArg regByte (State.eq_of_readReg_writeReg_ne hr).symm
  | push | call | ret => exact State.eq_of_readReg_writeReg_ne hr
  | pop _ r' =>
    by_cases hsp : r = spReg
    · exact .inr hsp
    · rw [State.advance_readReg, State.readReg_writeReg, if_neg hsp] at hr
      exact .inl (congrArg regByte (State.eq_of_readReg_writeReg_ne hr).symm)
  | _ => exact absurd rfl hr

end

/-! ## The record of a fault -/

/-- The record of a fault raised at `pc`, with the opcode byte fetched by then (R127). -/
def Raised.record (e : Raised) (pc : Nat) (opcode : Option Byte) : FaultRecord := ⟨e.kind, pc, opcode, e.value, e.ctx⟩

/-- R128: taking a fault is ending Faulted with its record. -/
theorem State.takeFault_eq_faultedWith (s : State) (opcode : Option Byte) (e : Raised) :
    s.takeFault opcode e = s.faultedWith (e.record s.pc opcode) := rfl

/-- The register operand that is at fault is a byte above 7, and the instruction has a fault context Decode (R129). -/
theorem registerOperands_fault {i : Instr} {b : Byte}
    (h : i.registerOperands.find? (fun b => !namesRegister b) = some b) :
    7 < b.toNat ∧ FaultContext.decode ∈ i.faultContexts := by
  refine ⟨by simpa [namesRegister] using List.find?_some h, ?_⟩
  cases i with
  | halt | ret => cases h
  | _ => exact List.mem_cons_self

/-- R129: an instruction raises a fault in a context of its list. -/
theorem Faults.ctx_mem {i : Instr} {s : State} {e : Raised} (h : Faults i s e) : e.ctx ∈ i.faultContexts := by
  cases h with
  | register _ _ b hb => exact (registerOperands_fault hb).2
  | _ => simp [Instr.faultContexts, addressError]

/-- R127: an instruction that lies in memory, whole, raises what the table says. -/
theorem Faults.record_followsTable {i : Instr} {s : State} {e : Raised} (h : Faults i s e)
    (hfits : s.pc + i.operandBytes.length ≤ 255) : (e.record s.pc (some i.opcode)).followsTable := by
  cases h with
  | register _ _ b hb =>
    obtain ⟨hb7, -⟩ := registerOperands_fault hb
    obtain ⟨row, hrow, -⟩ := lookup_opcode i
    have hlt := b.isLt
    exact ⟨i.opcode, rfl, .inr ⟨rfl, show (7 : Int) < (b.toNat : Int) by omega,
      show (b.toNat : Int) ≤ 255 by omega, by rw [hrow]; rfl⟩⟩
  | callReturn _ r hsp hpast =>
    have hpc : s.pc = 254 := by
      simp only [Instr.operandBytes, List.length_cons, List.length_nil] at hfits
      omega
    exact ⟨rfl, show (s.pc : Int) + 2 = 256 by omega, rfl, hpc⟩
  | _ => exact ⟨rfl, rfl, rfl⟩

/-- R127: a fetch from `pc` at most 256 raises what the table says. -/
theorem State.fetch_record_followsTable {s : State} {f : FetchFault} (h : s.fetch = .error f) (hpc : s.pc ≤ 256) :
    (f.raised.record s.pc f.opcode).followsTable := by
  obtain ⟨hbeyond, hf⟩ | ⟨-, hunknown, hf⟩ | ⟨row, hle, hrow, hpast, hf⟩ | ⟨_, -, -, hf⟩ := s.fetch_cases <;>
    rw [hf] at h <;> cases h
  · exact ⟨rfl, show (s.pc : Int) = 256 by omega, rfl, show s.pc = 256 by omega⟩
  · exact ⟨_, rfl, .inl ⟨rfl, rfl, hunknown⟩⟩
  · obtain ⟨-, -, -, hn⟩ := build_of_lookup hrow 0 0
    exact ⟨rfl, rfl, rfl, show s.pc = 254 ∨ s.pc = 255 by omega⟩

/-! ## A step completes or ends Faulted with a record of the table -/

/-- The inversion lemma of `step` by its two outcomes. -/
theorem step_completes_or_faults {s t : State} (h : step s = .next t) :
    s.run = .running ∧ ((∃ i, s.fetch = .ok i ∧ Completes i s t) ∨
      ∃ k, t = s.faultedWith k ∧ k.pc = s.pc ∧ (s.pc ≤ 256 → k.followsTable)) := by
  obtain ⟨hrun, ⟨f, hfetch, rfl⟩ | ⟨i, hfetch, hc⟩ | ⟨i, e, hfetch, he, rfl⟩⟩ := step_next h
  · exact ⟨hrun, .inr ⟨_, s.takeFault_eq_faultedWith _ _, rfl, State.fetch_record_followsTable hfetch⟩⟩
  · exact ⟨hrun, .inl ⟨i, hfetch, hc⟩⟩
  · obtain ⟨-, hfits, -⟩ := State.fetch_ok hfetch
    exact ⟨hrun, .inr ⟨_, s.takeFault_eq_faultedWith _ _, rfl, fun _ => he.record_followsTable hfits⟩⟩

/-- A completed instruction, run in Running, does not end Faulted. -/
theorem Completes.run_ne_faulted {i : Instr} {s t : State} (h : Completes i s t) (hrun : s.run = .running) :
    t.run ≠ .faulted := by
  obtain hsame | ⟨-, hhalted⟩ := h.run_cases
  · rw [hsame, hrun]
    decide
  · rw [hhalted]
    decide

/-- A step that ends Faulted changes only the run state and the record (R128, R130), which follows the table (R127). -/
theorem step_faultedWith {s t : State} (h : step s = .next t) (hfaulted : t.run = .faulted) :
    ∃ k, t = s.faultedWith k ∧ k.pc = s.pc ∧ (s.pc ≤ 256 → k.followsTable) := by
  obtain ⟨hrun, ⟨i, -, hc⟩ | hk⟩ := step_completes_or_faults h
  · exact absurd hfaulted (hc.run_ne_faulted hrun)
  · exact hk

/-! ## The invariant -/

theorem Completes.memCanonical {i : Instr} {s t : State} (h : Completes i s t) (hwf : s.mem.wf = true) :
    t.mem.wf = true := by
  obtain hmem | ⟨v, -, -, -, hmem⟩ := h.mem_cases <;> rw [hmem]
  · exact hwf
  · exact Memory.wf_write hwf (s.sp - 1).isLt

/-- A state outside Faulted meets the invariant if it has no record, `pc` in 0..256 and canonical memory. -/
theorem State.Inv.of_no_record {s : State} (hpc : s.pc ≤ 256) (hwf : s.mem.wf = true) (hrun : s.run ≠ .faulted)
    (hfault : s.fault = none) : s.Inv where
  pcRange := hpc
  memCanonical := hwf
  faultIffFaulted := by
    rw [hfault]
    exact iff_of_false Bool.false_ne_true hrun
  recordLegal r hr := by
    rw [hfault] at hr
    cases hr

/-- R32: outside Faulted the invariant leaves no record. -/
theorem State.Inv.fault_eq_none {s : State} (h : s.Inv) (hrun : s.run ≠ .faulted) : s.fault = none := by
  rw [← Option.not_isSome_iff_eq_none, h.faultIffFaulted]
  exact hrun

theorem State.Inv.of_faultedWith {s : State} (h : s.Inv) {k : FaultRecord} (hpc : k.pc = s.pc)
    (htable : k.followsTable) : (s.faultedWith k).Inv where
  pcRange := h.pcRange
  memCanonical := h.memCanonical
  faultIffFaulted := iff_of_true rfl rfl
  recordLegal r hr := by
    cases hr
    exact ⟨hpc, htable⟩

/-- Settles O40: a completed instruction was fetched whole from memory, so `pc` stays in range, and it leaves memory
canonical and the record absent; a fault adds a record that follows the table. -/
theorem stepKeepsTheInvariant : Obligations.StepKeepsTheInvariant := by
  unfold Obligations.StepKeepsTheInvariant
  intro s t hinv hstep
  obtain ⟨hrun, ⟨i, hfetch, hc⟩ | ⟨k, rfl, hpc, htable⟩⟩ := step_completes_or_faults hstep
  · obtain ⟨-, hfits, -⟩ := State.fetch_ok hfetch
    refine .of_no_record (hc.pc_le hfits) (hc.memCanonical hinv.memCanonical) (hc.run_ne_faulted hrun) ?_
    rw [hc.fault_eq]
    exact hinv.fault_eq_none (by rw [hrun]; decide)
  · exact hinv.of_faultedWith hpc (htable hinv.pcRange)

/-! ## The obligations on steps and faults -/

/-- Settles O10: the fetch faults, or the fetched instruction answers a next state. -/
theorem runningNeverSticks : Obligations.RunningNeverSticks := by
  unfold Obligations.RunningNeverSticks
  intro s hrun
  cases hfetch : s.fetch with
  | error f => exact ⟨_, step_fetchFault hrun hfetch⟩
  | ok i =>
    rw [step_fetched hrun hfetch]
    exact exec_total i s

/-- Settles O11: such an instruction completed, and its encoding has at least two bytes. -/
theorem genericAdvanceIsTheLength : Obligations.GenericAdvanceIsTheLength := by
  unfold Obligations.GenericAdvanceIsTheLength
  intro i s t hexec hrun hpcSetting hhalt
  obtain hc | ⟨e, -, rfl⟩ := exec_next hexec
  · have hpc := hc.pc_generic hpcSetting hhalt
    have hlen : 2 ≤ (encode i).length := by
      cases i with
      | halt => exact absurd rfl hhalt
      | ret => cases hpcSetting
      | _ => simp [encode, Instr.operandBytes]
    exact ⟨hpc, by omega⟩
  · exact absurd rfl hrun

/-- Settles O28: memory changes only by the store of a completed PUSH or CALL, one byte below SP. -/
theorem onlyPushAndCallWriteMemory : Obligations.OnlyPushAndCallWriteMemory := by
  unfold Obligations.OnlyPushAndCallWriteMemory
  intro s t a hstep hchanged
  obtain ⟨-, ⟨i, hfetch, hc⟩ | ⟨k, rfl, -⟩⟩ := step_completes_or_faults hstep
  · obtain hmem | ⟨v, b, hi, hsp, hmem⟩ := hc.mem_cases <;> rw [hmem] at hchanged
    · exact absurd rfl hchanged
    · have ha : a = (s.sp - 1).toNat := by
        by_contra hne
        exact hchanged (Memory.read_write_ne hne)
      rw [toNat_sub_one hsp] at ha
      refine ⟨by omega, b, ?_⟩
      obtain rfl | rfl := hi
      · exact .inl hfetch
      · exact .inr hfetch
  · exact absurd rfl hchanged

/-- Settles O29: a fault changes no register, and a completed instruction only those of the table. -/
theorem registersChangeOnlyAsListed : Obligations.RegistersChangeOnlyAsListed := by
  unfold Obligations.RegistersChangeOnlyAsListed
  intro i s t r hexec hchanged
  obtain hc | ⟨e, -, rfl⟩ := exec_next hexec
  · exact hc.mayWrite hchanged
  · exact absurd rfl hchanged

/-- Settles O33: naming no register is being above 7. -/
theorem registerOperandsAreCheckedInOrder : Obligations.RegisterOperandsAreCheckedInOrder := by
  unfold Obligations.RegisterOperandsAreCheckedInOrder
  intro i s b hfind
  have habove : (fun b : Byte => decide (7 < b.toNat)) = fun b => !namesRegister b := by
    funext b
    rw [namesRegister, ← decide_not]
    exact decide_eq_decide.mpr Nat.not_le.symm
  rw [habove] at hfind
  exact exec_registerFault s hfind

/-- Settles O34: run in Running, only a fault ends Faulted, and its context is in the instruction's list. -/
theorem instructionsFaultOnlyAsListed : Obligations.InstructionsFaultOnlyAsListed := by
  unfold Obligations.InstructionsFaultOnlyAsListed
  intro i s t hrun hexec hfaulted
  obtain hc | ⟨e, he, rfl⟩ := exec_next hexec
  · exact absurd hfaulted (hc.run_ne_faulted hrun)
  · exact ⟨_, s.takeFault_eq_faultedWith _ _, rfl, rfl, he.ctx_mem⟩

/-- Settles O35: such a step is `faultedWith` a record at `pc`. -/
theorem faultsArePrecise : Obligations.FaultsArePrecise := by
  unfold Obligations.FaultsArePrecise
  intro s t hstep hfaulted
  obtain ⟨k, rfl, hpc, -⟩ := step_faultedWith hstep hfaulted
  exact ⟨k, rfl, hpc, rfl, rfl, rfl, rfl, rfl⟩

/-- Settles O36: the record is the fetch's or the instruction's, and both follow the table. -/
theorem faultRecordsFollowTheTable : Obligations.FaultRecordsFollowTheTable := by
  unfold Obligations.FaultRecordsFollowTheTable
  intro s t k hpc hstep hfaulted hk
  obtain ⟨k', rfl, -, htable⟩ := step_faultedWith hstep hfaulted
  cases hk
  exact htable hpc

/-- Settles O37: by the two outcomes of a step and what a completion does to the run state. -/
theorem runStateTransitions : Obligations.RunStateTransitions := by
  unfold Obligations.RunStateTransitions
  intro s t hstep
  obtain ⟨hrun, ⟨i, hfetch, hc⟩ | ⟨k, rfl, -⟩⟩ := step_completes_or_faults hstep
  · obtain hsame | ⟨rfl, hhalted⟩ := hc.run_cases
    · exact ⟨hrun, .inl ⟨hsame.trans hrun, hc.fault_eq⟩⟩
    · exact ⟨hrun, .inr (.inl ⟨hhalted, hc.fault_eq, hfetch⟩)⟩
  · exact ⟨hrun, .inr (.inr ⟨rfl, rfl⟩)⟩

end Sys2Proof.Machine

namespace Sys2Proof.Machine

/-! ## POP -/

section
variable {s : State}

/-- R110 for `r7`: SP is the popped byte when it is incremented. -/
theorem exec_pop_spReg (hbound : ¬ (s.sp.toNat = 255 ∧ Config.popR7AtTopFaults = true))
    (h : (s.mem.read s.sp.toNat).toNat < 255) : exec (.pop (regByte spReg)) s =
      .next (((s.writeReg spReg (s.mem.read s.sp.toNat)).writeReg spReg (s.mem.read s.sp.toNat + 1)).advance 1) := by
  have hsp := s.sp_writeReg_sp (s.mem.read s.sp.toNat)
  have hb : ¬ (popR7AtTop spReg s ∧ Config.popR7AtTopFaults = true) := fun hb => hbound ⟨hb.1.2, hb.2⟩
  rw [(Completes.pop s spReg hb (by rwa [hsp])).exec_eq, hsp]

/-- The fault of a POP that finds SP at the top after its load. -/
theorem exec_pop_top {r : Fin 8} (h : (s.writeReg r (s.mem.read s.sp.toNat)).sp.toNat = 255) :
    exec (.pop (regByte r)) s = .next (s.faultedWith ⟨.addressError, s.pc, some 0x46, 256, .stackPop⟩) :=
  (Faults.pop s r h).exec_eq

end

/-- Settles O19: POP of another register finds SP as it was, POP of `r7` finds the popped byte in SP; the bound of log
entry 23 is the one case in which the free value decides. -/
theorem popLoadsThenIncrements : Obligations.PopLoadsThenIncrements := by
  unfold Obligations.PopLoadsThenIncrements
  refine ⟨fun _ => rfl, fun s r hr hsp => ?_, fun s hbyte => ?_, fun s r hr hsp => exec_pop_top ?_,
    fun s hbyte => exec_pop_top ?_, operandFetchFault_of_lookup rfl (by decide) (by decide),
    fun b hb => registerIndexFault_head rfl hb⟩
  · have hframe (i : Fin 8) (hne : i ≠ r) (hnesp : i ≠ spReg) :
        (((s.writeReg r (s.mem.read s.sp.toNat)).writeReg spReg (s.sp + 1)).advance 1).readReg i = s.readReg i := by
      rw [State.advance_readReg, State.readReg_writeReg, if_neg hnesp, State.readReg_writeReg, if_neg hne]
    refine ⟨_, exec_pop_of_ne hr hsp, ?_, ?_, hframe, rfl, rfl, fun _ => rfl, rfl, rfl, rfl⟩
    · rw [State.advance_readReg, State.readReg_writeReg, if_neg hr, State.readReg_writeReg, if_pos rfl]
    · rw [State.advance_sp, State.sp_writeReg_sp, toNat_add_one hsp]
  · have hframe : RegsSameBut spReg s
        (((s.writeReg spReg (s.mem.read s.sp.toNat)).writeReg spReg (s.mem.read s.sp.toNat + 1)).advance 1) := by
      intro i hne
      rw [State.advance_readReg, State.readReg_writeReg, if_neg hne, State.readReg_writeReg, if_neg hne]
    refine ⟨_, ?_, ?_, hframe, rfl, rfl, fun _ => rfl, rfl, rfl, rfl⟩
    · split
      · next hbound => exact (Faults.popBound s spReg ⟨⟨rfl, hbound.1⟩, hbound.2⟩).exec_eq
      · next hbound => exact exec_pop_spReg hbound hbyte
    · rw [State.advance_sp, State.sp_writeReg_sp, toNat_add_one hbyte]
  · rw [State.sp_writeReg, if_neg hr.symm, hsp]
  · rw [State.sp_writeReg_sp, hbyte]

/-! ## A fetch after a store -/

/-- R60: in Running, the fetches from an address of the memory use the byte that the memory holds there. -/
theorem fetchesUse_of_read {t : State} {a : Nat} {v : Byte} (hrun : t.run = .running) (ha : a ≤ 255)
    (hread : t.mem.read a = v) : FetchesUse t a v := by
  subst hread
  have hstep {p : Nat} {row : OpcodeRow} (hp : p ≤ 255) (hrow : lookup (t.mem.read p) = some row) :=
    operandFetchReadsDeclaredBytes (t.setPc p) row hrun hp hrow
  refine ⟨State.memRead_ok .fetch ha, fun hhalt => ⟨(t.setPc a).setRun .halted, ?_, rfl, rfl⟩, fun hun =>
    step_unknown hrun ha (unlistedOpcode_iff_lookup.mp hun),
    fun row hrow => ⟨fun hfits => ?_, (hstep ha hrow).2⟩, fun row p hpa hrow _ hfits => ?_,
    fun row p hpa hrow htwo => ?_⟩
  · exact (step_operandless (i := .halt) (s := t.setPc a) rfl hrun ha hhalt).trans (Completes.halt _).exec_eq
  · exact (hstep ha hrow).1 hfits _ _ (fun _ => rfl) fun _ => rfl
  · subst hpa
    exact (hstep (by omega) hrow).1 hfits _ _ (fun _ => rfl) fun _ => rfl
  · subst hpa
    exact (hstep (by omega) hrow).1 (show p + row.operands ≤ 255 by omega) _ _ (fun _ => rfl) fun _ => rfl

/-- Settles O23: the byte that `State.pushByte` stored is what the memory holds at the new SP. -/
theorem fetchSeesThePushedByte : Obligations.FetchSeesThePushedByte := by
  unfold Obligations.FetchSeesThePushedByte
  intro s r hwf hrun hsp
  have hread (v : Byte) := State.pushByte_read_sp (s := s) v hwf
  have htop : (s.sp - 1).toNat ≤ 255 := (toNat_sub_one_lt hsp).le
  refine ⟨⟨_, exec_push r hsp, ?_⟩, fun hpc => ⟨_, exec_call r hsp hpc, ?_⟩⟩
  · rw [State.advance_sp, State.pushByte_sp]
    exact fetchesUse_of_read hrun htop (hread _)
  · rw [State.setPc_sp, State.pushByte_sp]
    exact fetchesUse_of_read hrun htop (hread _)

end Sys2Proof.Machine

namespace Sys2Proof.Machine

/-! ## Runs of the harness -/

/-- R163: outside Running the harness reports the state it was given, whatever the fuel. -/
theorem runWithFuel_notRunning {s : State} (fuel : Nat) (h : s.run ≠ .running) :
    runWithFuel fuel s = harnessReport s := by
  cases fuel with
  | zero => rfl
  | succ fuel => rw [runWithFuel, step_notRunning h]

theorem runWithFuel_succ {s u : State} (fuel : Nat) (h : step s = .next u) :
    runWithFuel (fuel + 1) s = runWithFuel fuel u := by
  rw [runWithFuel, h]

/-- The harness reports out of fuel only in Running. -/
theorem harnessReport_outOfFuel {s t : State} (h : harnessReport s = .outOfFuel t) : t.run = .running ∧ s = t := by
  rw [harnessReport] at h
  split at h <;> cases h
  next hrun => exact ⟨hrun, rfl⟩

/-- An ended run is no longer Running. -/
theorem harnessReport_ended {s t : State} (h : harnessReport s = .ended t) : s.run ≠ .running ∧ s = t := by
  rw [harnessReport] at h
  split at h <;> cases h
  · next hrun => exact ⟨by rw [hrun]; decide, rfl⟩
  · next hrun => exact ⟨by rw [hrun]; decide, rfl⟩

/-- R87: a step that runs HALT ends Halted on the HALT at `pc`. -/
theorem step_haltedNormally {s t : State} (h : step s = .next t) (hfetch : s.fetch = .ok .halt) (hfault : s.fault = none) :
    t.haltedNormally := by
  obtain ⟨hop, hle, -⟩ := State.fetch_ok hfetch
  obtain ⟨hrun, -⟩ := step_next h
  rw [step_fetched hrun hfetch, (Completes.halt s).exec_eq] at h
  cases h
  exact ⟨rfl, hfault, Nat.lt_succ_of_le hle, hop⟩

/-- Settles O38: by induction on the fuel; a step in Running goes on without a record, or ends the run. -/
theorem runsEndHaltedOnHaltOrFaulted : Obligations.RunsEndHaltedOnHaltOrFaulted := by
  unfold Obligations.RunsEndHaltedOnHaltOrFaulted
  intro fuel
  induction fuel with
  | zero =>
    intro s t hrun _ h
    exact absurd hrun (harnessReport_ended h).1
  | succ fuel ih =>
    intro s t hrun hfault h
    obtain ⟨u, hstep⟩ := runningNeverSticks s hrun
    rw [runWithFuel_succ fuel hstep] at h
    have hend (hstopped : u.run ≠ .running) : u = t := by
      rw [runWithFuel_notRunning fuel hstopped] at h
      exact (harnessReport_ended h).2
    obtain ⟨-, ⟨hgoes, hsame⟩ | ⟨hhalted, -, hfetch⟩ | ⟨hfaulted, -⟩⟩ := runStateTransitions s u hstep
    · exact ih u t hgoes (hsame.trans hfault) h
    · obtain rfl := hend (by rw [hhalted]; decide)
      exact .inl (step_haltedNormally hstep hfetch hfault)
    · obtain rfl := hend (by rw [hfaulted]; decide)
      obtain ⟨k, rfl, hpc, -⟩ := step_faultedWith hstep hfaulted
      exact .inr ⟨rfl, k, rfl, hpc⟩

/-- R163: a run out of fuel took a step for every unit of it. -/
theorem runWithFuel_outOfFuel {fuel : Nat} {s t : State} (h : runWithFuel fuel s = .outOfFuel t) :
    t.run = .running ∧ Host.Core.run Sys2Proof.core fuel s = .next t := by
  induction fuel generalizing s with
  | zero =>
    obtain ⟨hrun, rfl⟩ := harnessReport_outOfFuel h
    exact ⟨hrun, run_zero s⟩
  | succ fuel ih =>
    have hrun : s.run = .running := by
      by_contra hstopped
      rw [runWithFuel_notRunning _ hstopped] at h
      obtain ⟨hrun, rfl⟩ := harnessReport_outOfFuel h
      exact hstopped hrun
    obtain ⟨u, hstep⟩ := runningNeverSticks s hrun
    rw [runWithFuel_succ fuel hstep] at h
    rw [run_succ hstep]
    exact ih h

/-- R163: a run that ended is not changed by more fuel. -/
theorem runWithFuel_ended_add {fuel : Nat} {s t : State} (h : runWithFuel fuel s = .ended t) (more : Nat) :
    runWithFuel (fuel + more) s = .ended t := by
  by_cases hrun : s.run = .running
  · induction fuel generalizing s with
    | zero => exact absurd hrun (harnessReport_ended h).1
    | succ fuel ih =>
      obtain ⟨u, hstep⟩ := runningNeverSticks s hrun
      rw [runWithFuel_succ fuel hstep] at h
      rw [Nat.succ_add, runWithFuel_succ (fuel + more) hstep]
      by_cases hu : u.run = .running
      · exact ih h hu
      · rwa [runWithFuel_notRunning _ hu] at h ⊢
  · rwa [runWithFuel_notRunning _ hrun] at h ⊢

/-- Settles O39: by induction on the fuel, each. -/
theorem fuelOnlyBoundsTheRun : Obligations.FuelOnlyBoundsTheRun := by
  unfold Obligations.FuelOnlyBoundsTheRun
  exact ⟨fun _ _ _ => runWithFuel_outOfFuel, fun _ more _ _ h => runWithFuel_ended_add h more⟩

/-! ## Reset, load and start -/

theorem State.load_eq {s : State} {image : List Byte} (hrun : s.run = .ready) (hlen : image.length ≤ 256) :
    s.load image = some { s with mem := Memory.writeBytes [] 0 image } := if_pos ⟨hrun, hlen⟩

/-- R152 and log entry 19: a load that is answered was asked for in Ready, and stores the image alone. -/
theorem State.load_some {s t : State} {image : List Byte} (h : s.load image = some t) :
    s.run = .ready ∧ t = { s with mem := Memory.writeBytes [] 0 image } := by
  rw [State.load] at h
  split at h
  · next hguard =>
    cases h
    exact ⟨hguard.1, rfl⟩
  · cases h

/-- R38: a start that is answered was asked for in Ready, and sets the run state alone. -/
theorem State.start_some {s t : State} (h : s.start = some t) : s.run = .ready ∧ t = s.setRun .running := by
  rw [State.start] at h
  split at h
  · next hrun =>
    cases h
    exact ⟨hrun, rfl⟩
  · cases h

theorem State.load_eq_none {s : State} (h : s.run ≠ .ready) (image : List Byte) : s.load image = none :=
  if_neg fun hguard => h hguard.1

/-- Settles O42: from Ready there is no record, and the loaded image is stored in canonical form. -/
theorem loadAndStartKeepTheInvariant : Obligations.LoadAndStartKeepTheInvariant := by
  unfold Obligations.LoadAndStartKeepTheInvariant
  have hready {s : State} (h : s.run = .ready) : s.run ≠ .faulted := by rw [h]; decide
  refine ⟨fun s t image hinv hload => ?_, fun s t hinv hstart => ?_⟩
  · obtain ⟨hrun, rfl⟩ := State.load_some hload
    exact .of_no_record hinv.pcRange (Memory.wf_writeBytes rfl) (hready hrun) (hinv.fault_eq_none (hready hrun))
  · obtain ⟨hrun, rfl⟩ := State.start_some hstart
    exact .of_no_record hinv.pcRange hinv.memCanonical (show RunState.running ≠ .faulted by decide)
      (hinv.fault_eq_none (hready hrun))

/-- Settles O41: after reset `pc` is 0, memory lists nothing and there is no record. -/
theorem resetMeetsTheInvariant : Obligations.ResetMeetsTheInvariant := by
  unfold Obligations.ResetMeetsTheInvariant
  exact fun _ _ => .of_no_record (Nat.zero_le _) rfl (show RunState.ready ≠ .faulted by decide) rfl

/-- R42: where the image ends, memory reads 0. -/
theorem read_image {image : List Byte} (hlen : image.length ≤ 256) (k : Nat) :
    (Memory.writeBytes [] 0 image).read k = image.getD k 0 := by
  rw [Memory.read_writeBytes rfl]
  split
  · rfl
  · next hout =>
    have hbeyond : image.length ≤ k := by
      by_contra hlt
      exact hout ⟨Nat.zero_le k, by omega, show k < 256 by omega⟩
    rw [List.getD_eq_default _ _ hbeyond]
    rfl

/-- Settles O43: an image that fits is loaded into the reset state, and changes nothing but memory. -/
theorem resetWithAnImageLoaded : Obligations.ResetWithAnImageLoaded := by
  unfold Obligations.ResetWithAnImageLoaded
  intro initRegs initFl image hlen
  have hregs (k : Fin 7) : (State.resetWith initRegs initFl).readReg k.castSucc = initRegs k := by
    fin_cases k <;> rfl
  refine ⟨_, State.load_eq rfl hlen, fun k _ => read_image hlen k, fun k hk => ?_, rfl, rfl, hregs, rfl, rfl, rfl, rfl,
    rfl⟩
  exact (read_image hlen k).trans (List.getD_eq_default _ _ hk)

/-- Settles O44: each request by its guard on the run state. -/
theorem hostRequestsAreGuarded : Obligations.HostRequestsAreGuarded := by
  unfold Obligations.HostRequestsAreGuarded
  refine fun s => ⟨fun hrun => if_pos hrun, fun hrun => ⟨if_neg hrun, State.load_eq_none hrun⟩, fun hrun => ?_,
    fun hrun => ?_, rfl⟩
  · obtain ⟨t, hstep⟩ := runningNeverSticks s hrun
    exact ⟨t, by simp only [State.request, hstep], hstep⟩
  · simp only [State.request, step_notRunning hrun]

end Sys2Proof.Machine

namespace Sys2Proof.Machine

/-! ## The rendered line -/

theorem renderByte_isDigit {v : Byte} {c : Char} (h : c ∈ renderByte v) : c.isDigit = true :=
  Nat.isDigit_of_mem_toDigits (by decide) (by decide) h

/-- R162: the digits, read as a decimal number, are the byte. -/
theorem ofDigitChars_renderByte (v : Byte) : Nat.ofDigitChars 10 (renderByte v) 0 = v.toNat :=
  Nat.ofDigitChars_toDigits (by decide) (by decide)

/-- The decimal digits of a number other than 0 do not begin with 0. -/
theorem toDigits_head_ne_zero {n : Nat} (h : n ≠ 0) : (Nat.toDigits 10 n).head? ≠ some '0' := by
  induction n using Nat.strong_induction_on with
  | h n ih =>
    rw [Nat.toDigits_eq_if (by decide)]
    split
    · next hlt =>
      rw [List.head?_cons]
      interval_cases n
      · exact absurd rfl h
      all_goals decide
    · next hge =>
      have hhead := ih (n / 10) (by omega) (by omega)
      rw [List.head?_append_of_ne_nil _ Nat.toDigits_ne_nil]
      exact hhead

/-- Settles O46: by the library's facts about decimal digits and by `toDigits_head_ne_zero`. -/
theorem renderedLineIsTheDecimalValue : Obligations.RenderedLineIsTheDecimalValue := by
  unfold Obligations.RenderedLineIsTheDecimalValue
  refine ⟨fun v => ⟨fun c hc => ?_, ofDigitChars_renderByte v, fun hv => toDigits_head_ne_zero ?_⟩, rfl⟩
  · have hdigit := renderByte_isDigit hc
    rw [Char.isDigit, Bool.and_eq_true, decide_eq_true_eq, decide_eq_true_eq] at hdigit
    exact hdigit
  · exact fun hzero => hv (BitVec.eq_of_toNat_eq hzero)

/-! ## The loader -/

/-- The character of a binary digit. -/
def digitOfBit (b : Bool) : Char := if b then '1' else '0'

theorem binaryDigit_digitOfBit (b : Bool) : binaryDigit (digitOfBit b) = some b.toNat := by
  cases b <;> rfl

/-- The binary number of a line that begins with the given digits. -/
theorem binaryNumber_digits (bits : List Bool) (acc : Nat) (rest : List Char) :
    binaryNumber bits.length acc (bits.map digitOfBit ++ rest) =
      some (bits.foldl (fun n b => 2 * n + b.toNat) acc) := by
  induction bits generalizing acc with
  | nil => rfl
  | cons b bits ih =>
    rw [List.length_cons, List.map_cons, List.cons_append, binaryNumber, binaryDigit_digitOfBit]
    exact ih _

/-- The bits of a byte, most significant first. -/
def bitsOf (v : Byte) : List Bool := (List.range 8).map fun k => v.getLsbD (7 - k)

theorem byteLine_eq (v : Byte) : byteLine v = (bitsOf v).map digitOfBit := rfl

theorem foldl_bitsOf (v : Byte) : BitVec.ofNat 8 ((bitsOf v).foldl (fun n b => 2 * n + b.toNat) 0) = v := by
  revert v
  decide

/-- R160: a line that begins with the 8 binary digits of a byte stands for it. -/
theorem lineByte_byteLine (v : Byte) (rest : List Char) : lineByte (byteLine v ++ rest) = some v := by
  have hnumber := binaryNumber_digits (bitsOf v) 0 rest
  rw [← byteLine_eq] at hnumber
  exact (congrArg _ hnumber).trans (congrArg some (foldl_bitsOf v))

/-- R161: a line with less than `n` characters, or with one among its first `n` that is no binary digit, has no binary
number of `n` digits. -/
theorem binaryNumber_eq_none {n : Nat} {line : List Char} (acc : Nat)
    (h : line.length < n ∨ ∃ c ∈ line.take n, c ≠ '0' ∧ c ≠ '1') : binaryNumber n acc line = none := by
  induction n generalizing line acc with
  | zero => simp at h
  | succ n ih =>
    cases line with
    | nil => rfl
    | cons c line =>
      rw [binaryNumber]
      split
      · next d hd =>
        refine ih _ ?_
        obtain hshort | ⟨c', hmem, h0, h1⟩ := h
        · exact .inl (Nat.lt_of_succ_lt_succ hshort)
        · rw [List.take_succ_cons, List.mem_cons] at hmem
          obtain rfl | hmem := hmem
          · rw [binaryDigit, if_neg h0, if_neg h1] at hd
            cases hd
          · exact .inr ⟨c', hmem, h0, h1⟩
      · rfl

theorem isComment_byteLine (v : Byte) (rest : List Char) : isComment (byteLine v ++ rest) = false := by
  have hhead : isComment (byteLine v ++ rest) = (digitOfBit (v.getLsbD 7) == '#') := rfl
  rw [hhead]
  cases v.getLsbD 7 <;> rfl

section
variable {line : List Char} (rest : List (List Char))

theorem programBytes_comment (h : isComment line = true) : programBytes (line :: rest) = programBytes rest := by
  rw [programBytes, if_pos h]

theorem programBytes_bad (h : isComment line = false) (hline : lineByte line = none) :
    programBytes (line :: rest) = none := by
  rw [programBytes, if_neg (by rw [h]; decide), hline]

theorem programBytes_byte {b : Byte} (h : isComment line = false) (hline : lineByte line = some b) :
    programBytes (line :: rest) = (programBytes rest).map (b :: ·) := by
  rw [programBytes, if_neg (by rw [h]; decide), hline]
  cases programBytes rest <;> rfl

end

/-- The bytes of a file in two parts are those of the parts. -/
theorem programBytes_append (xs ys : List (List Char)) :
    programBytes (xs ++ ys) = (programBytes xs).bind fun bs => (programBytes ys).map (bs ++ ·) := by
  induction xs with
  | nil => cases h : programBytes ys <;> simp [programBytes, h]
  | cons line xs ih =>
    rw [List.cons_append]
    cases hcomment : isComment line with
    | true => rw [programBytes_comment _ hcomment, programBytes_comment _ hcomment, ih]
    | false =>
      cases hline : lineByte line with
      | none => rw [programBytes_bad _ hcomment hline, programBytes_bad _ hcomment hline]; rfl
      | some b =>
        rw [programBytes_byte _ hcomment hline, programBytes_byte _ hcomment hline, ih]
        cases programBytes xs <;> cases programBytes ys <;> rfl

/-- R160: lines of 8 binary digits are their bytes, in order. -/
theorem programBytes_byteLines (lines : List (Byte × List Char)) :
    programBytes (lines.map fun p => byteLine p.1 ++ p.2) = some (lines.map fun p => p.1) := by
  induction lines with
  | nil => rfl
  | cons p lines ih =>
    rw [List.map_cons, programBytes_byte _ (isComment_byteLine _ _) (lineByte_byteLine _ _), ih]
    rfl

/-- R160, R161: the image is the file's bytes, if they fit. -/
theorem loadProgram_of_programBytes {lines : List (List Char)} {bs : List Byte} (h : programBytes lines = some bs) :
    loadProgram lines = if bs.length ≤ 256 then some bs else none := by
  rw [loadProgram, h]

theorem loadProgram_refused {lines : List (List Char)} (h : programBytes lines = none) : loadProgram lines = none := by
  rw [loadProgram, h]

/-- Settles O45: `programBytes` takes a file line by line; a line of digits gives its byte, a comment none, and a bad
line refuses the file. -/
theorem loaderReadsOneByteALine : Obligations.LoaderReadsOneByteALine := by
  unfold Obligations.LoaderReadsOneByteALine
  refine ⟨fun lines hlen => ?_, fun lines hlen => ?_, fun before after comment => ?_,
    fun before after bad hcomment hbad => loadProgram_refused ?_⟩
  · rw [loadProgram_of_programBytes (programBytes_byteLines lines), if_pos (by rwa [List.length_map])]
  · rw [loadProgram_of_programBytes (programBytes_byteLines lines), if_neg (by rw [List.length_map]; omega)]
  · have hskip : programBytes (before ++ ('#' :: comment) :: after) = programBytes (before ++ after) := by
      rw [programBytes_append, programBytes_append, programBytes_comment _ rfl]
    rw [loadProgram, loadProgram, hskip]
  · have hnot : isComment bad = false := beq_false_of_ne hcomment
    have hline : lineByte bad = none := congrArg _ (binaryNumber_eq_none 0 hbad)
    rw [programBytes_append, programBytes_bad _ hnot hline]
    cases programBytes before <;> rfl

end Sys2Proof.Machine

namespace Sys2Proof.Machine

/-! ## The operands of an assembled instruction -/

/-- R77: the text of a register is read back. -/
theorem parseRegister_registerText (r : Fin 8) : parseRegister (registerText (regByte r)) = some (regByte r) := by
  revert r
  decide

theorem decimalNumber_digits {digits : List Char} (acc : Nat) (h : ∀ c ∈ digits, c.isDigit = true) :
    decimalNumber acc digits = some (Nat.ofDigitChars 10 digits acc) := by
  induction digits generalizing acc with
  | nil => rfl
  | cons c cs ih =>
    obtain ⟨hc, hcs⟩ := List.forall_mem_cons.mp h
    rw [decimalNumber, decimalDigit, if_pos hc]
    exact ih _ hcs

/-- A text of decimal digits is read as a decimal immediate: it has neither the `x` nor the `b` of another base. -/
theorem parseImmediate_digits {digits : List Char} {n : Nat} (hne : digits ≠ []) (h : ∀ c ∈ digits, c.isDigit = true)
    (hn : Nat.ofDigitChars 10 digits 0 = n) (hle : n ≤ 255) : parseImmediate digits = some (BitVec.ofNat 8 n) := by
  rw [parseImmediate.eq_def]
  split
  · exact absurd rfl hne
  · exact absurd (h 'x' (by simp)) (by decide)
  · exact absurd (h 'b' (by simp)) (by decide)
  · rw [decimalNumber_digits 0 h, hn]
    exact if_pos hle

/-- R77: the decimal text of an immediate is read back. -/
theorem parseImmediate_renderByte (v : Byte) : parseImmediate (renderByte v) = some v := by
  have hne : renderByte v ≠ [] := Nat.toDigits_ne_nil
  rw [parseImmediate_digits hne (fun _ => renderByte_isDigit) (ofDigitChars_renderByte v)
    (Nat.le_of_lt_succ v.isLt), BitVec.ofNat_toNat, BitVec.setWidth_eq]

/-! ## The mnemonics -/

/-- The row of the table that a mnemonic finds. -/
def mnemonicRow (mnemonic : List Char) : Option MnemonicRow :=
  mnemonicTable.find? fun m => decide (m.long = mnemonic ∨ m.short = mnemonic)

/-- R77, R78: no mnemonic of the table, long or short, stands in two rows. -/
theorem mnemonicRow_of_mem {m : MnemonicRow} (h : m ∈ mnemonicTable) :
    mnemonicRow m.long = some m ∧ mnemonicRow m.short = some m := by
  have hall : ∀ m ∈ mnemonicTable, mnemonicRow m.long = some m ∧ mnemonicRow m.short = some m := by decide
  exact hall m h

/-- Every instruction's opcode has a row of mnemonics. -/
theorem exists_mnemonicRow (i : Instr) : ∃ m ∈ mnemonicTable, m.opcode = i.opcode := by
  have hall : ∀ row ∈ opcodeTable, ∃ m ∈ mnemonicTable, m.opcode = row.opcode := by decide
  obtain ⟨row, hrow, -⟩ := lookup_opcode i
  obtain ⟨hmem, hop⟩ := lookup_some hrow
  rw [← hop]
  exact hall row hmem

section
variable {mnemonic : List Char} {m : MnemonicRow} {row : OpcodeRow}

/-- The inversion lemma of `assemble`: it answers what the row of the mnemonic's opcode builds. -/
theorem assemble_some {operands : List (List Char)} {i : Instr} (hm : mnemonicRow mnemonic = some m)
    (h : assemble mnemonic operands = some i) : ∃ row b1 b2, lookup m.opcode = some row ∧ i = row.build b1 b2 := by
  rw [mnemonicRow] at hm
  rw [assemble, hm] at h
  simp only at h
  split at h
  · cases h
  · next row hrow =>
    refine ⟨row, ?_⟩
    split at h
    · cases h
      exact ⟨0, 0, hrow, rfl⟩
    · obtain ⟨b1, -, rfl⟩ := Option.map_eq_some_iff.mp h
      exact ⟨b1, 0, hrow, rfl⟩
    · split at h <;> cases h
      exact ⟨_, _, hrow, rfl⟩
    · cases h

variable (hm : mnemonicRow mnemonic = some m) (hrow : lookup m.opcode = some row)
include hm hrow

theorem assemble_noOperand (hn : row.operands = 0) : assemble mnemonic [] = some (row.build 0 0) := by
  rw [mnemonicRow] at hm
  simp only [assemble, hm, hrow, hn]

theorem assemble_oneOperand {a : List Char} {b1 : Byte} (hn : row.operands = 1) (ha : parseRegister a = some b1) :
    assemble mnemonic [a] = some (row.build b1 0) := by
  rw [mnemonicRow] at hm
  simp only [assemble, hm, hrow, hn, ha, Option.map_some]

theorem assemble_twoOperands {a b : List Char} {b1 b2 : Byte} (hn : row.operands = 2) (ha : parseRegister a = some b1)
    (hb : (if m.opcode = 0x82 then parseImmediate b else parseRegister b) = some b2) :
    assemble mnemonic [a, b] = some (row.build b1 b2) := by
  rw [mnemonicRow] at hm
  simp only [assemble, hm, hrow, hn, ha, hb]

end

/-- The register operands of a well-formed instruction name registers (R69). -/
theorem registerOperands_of_wellFormed {i : Instr} (h : i.wellFormed = true) {b : Byte} (hb : b ∈ i.registerOperands) :
    ∃ r, b = regByte r := by
  obtain ⟨r, hr, -⟩ | ⟨habove, -⟩ := regOperand_cases b
  · exact ⟨r, hr⟩
  · have hnames : namesRegister b = true := List.all_eq_true.mp h b hb
    rw [namesRegister_above habove] at hnames
    cases hnames

/-- R77, R78: under a mnemonic of its opcode, the text of a well-formed instruction's operands assembles to it. -/
theorem assemble_operandTexts {mnemonic : List Char} {m : MnemonicRow} {i : Instr} (hm : mnemonicRow mnemonic = some m)
    (hop : m.opcode = i.opcode) (hw : i.wellFormed = true) : assemble mnemonic (operandTexts i) = some i := by
  obtain ⟨row, hrow, hlen, hbuild⟩ := lookup_opcode i
  rw [← hop] at hrow
  refine Eq.trans ?_ (congrArg some hbuild)
  have hregister {b : Byte} (hb : b ∈ i.registerOperands) : parseRegister (registerText b) = some b := by
    obtain ⟨r, rfl⟩ := registerOperands_of_wellFormed hw hb
    exact parseRegister_registerText r
  cases i with
  | halt | ret => exact assemble_noOperand hm hrow hlen
  | printRegister | push | pop | call | jump | jumpIfEqual | jumpIfNotEqual =>
    exact assemble_oneOperand hm hrow hlen (hregister List.mem_cons_self)
  | loadImmediate =>
    refine assemble_twoOperands hm hrow hlen (hregister List.mem_cons_self) ?_
    exact (if_pos hop).trans (parseImmediate_renderByte _)
  | multiply | add | compare =>
    refine assemble_twoOperands hm hrow hlen (hregister List.mem_cons_self) ?_
    rw [hop, if_neg (by simp [Instr.opcode])]
    exact hregister (List.mem_cons_of_mem _ List.mem_cons_self)

/-- Settles O4: a mnemonic finds its own row only; the operands' texts are read back, and whatever is assembled is built
by the row of the mnemonic's opcode. -/
theorem assemblyNamesEachInstruction : Obligations.AssemblyNamesEachInstruction := by
  unfold Obligations.AssemblyNamesEachInstruction
  refine ⟨fun i hw => ?_, fun m hmem operands i h => ?_⟩
  · obtain ⟨m, hmem, hop⟩ := exists_mnemonicRow i
    obtain ⟨hlong, hshort⟩ := mnemonicRow_of_mem hmem
    exact ⟨m, hmem, hop, assemble_operandTexts hlong hop hw, assemble_operandTexts hshort hop hw⟩
  · obtain ⟨hlong, hshort⟩ := mnemonicRow_of_mem hmem
    obtain ⟨row, b1, b2, hrow, rfl⟩ := h.elim (assemble_some hlong) (assemble_some hshort)
    exact (build_of_lookup hrow b1 b2).1

end Sys2Proof.Machine
